-- ==== Sys2Proof/Word.lean ====
section
/-! DEFINITION. The word types of the core: 64-bit words, bytes and register indices (R7). -/

namespace Sys2Proof

/-- A 64-bit unsigned value: a register, an address, an instruction word (R7). -/
abbrev Word := BitVec 64

/-- An 8-bit byte of memory (R7). -/
abbrev Byte := BitVec 8

/-- The index of a general register, 0..15 (R17). -/
abbrev Reg := Fin 16

end Sys2Proof
end

