-- ==== Sys2Proof/Syntax.lean ====
section
/-! DEFINITION. The instructions of the core: the 37 mnemonics of R72, the four addressing modes of R67 as operand
forms, and one constructor of `Instr` for each row of the opcode table, with the fields R70 says it uses. -/

namespace Sys2Proof

/-- The 37 mnemonics, in the order of the opcode map of R72. -/
inductive Mnemonic where
  | nop | mov | load | store | push | pop
  | add | sub | mul | div | mod | inc | dec | cmp | swap
  | and | or | xor | not | shl | shr
  | jmp | jz | jnz | jc | jnc | jl | jle | jg | jge | loop | call | ret
  | hlt | print | inPort | outPort
  deriving DecidableEq, Repr

/-- Every mnemonic once, in the order of R72. -/
def Mnemonic.all : List Mnemonic :=
  [.nop, .mov, .load, .store, .push, .pop,
   .add, .sub, .mul, .div, .mod, .inc, .dec, .cmp, .swap,
   .and, .or, .xor, .not, .shl, .shr,
   .jmp, .jz, .jnz, .jc, .jnc, .jl, .jle, .jg, .jge, .loop, .call, .ret,
   .hlt, .print, .inPort, .outPort]

/-- A mode-resolved operand (R67, R70). The register is the one of the operand's role: `reg1` for role 1, `reg2` for
role 2. `undefinedMode` is a mode field of 4..15, which the decoder lets through only when STRICT_DECODE is false (R73). -/
inductive Operand where
  /-- REGISTER: the operand is `x[r]`. -/
  | register (r : Reg)
  /-- IMMEDIATE: the operand is the 32-bit immediate, zero-extended. -/
  | immediate (v : BitVec 32)
  /-- MEMORY: the operand is `mem64[a]`, `a` the zero-extended immediate. -/
  | memory (a : BitVec 32)
  /-- REGISTER_INDIRECT: the operand is `mem64[x[r]]`. -/
  | registerIndirect (r : Reg)
  /-- A mode in 4..15: resolving it raises IllegalOpcode (R68). -/
  | undefinedMode (mode : BitVec 4)
  deriving DecidableEq, Repr

/-- One constructor for each row of the opcode table. A register argument is the field R70 names; an `Operand` is the
mode-resolved operand of the role R70 gives. -/
inductive Instr where
  /-- NOP (R120). -/
  | nop
  /-- MOV Rd, src: `reg1` destination, role 2 source (R81). -/
  | mov (rd : Reg) (src : Operand)
  /-- LOAD Rd, addr: `reg1` destination, role 2 address (R82). -/
  | load (rd : Reg) (addr : Operand)
  /-- STORE addr, Rs: role 1 address, `reg2` value (R83). -/
  | store (addr : Operand) (rs : Reg)
  /-- PUSH src: role 1 value (R84). -/
  | push (src : Operand)
  /-- POP Rd: `reg1` destination (R85). -/
  | pop (rd : Reg)
  /-- ADD Rd, src (R88). -/
  | add (rd : Reg) (src : Operand)
  /-- SUB Rd, src (R89). -/
  | sub (rd : Reg) (src : Operand)
  /-- MUL Rd, src (R90). -/
  | mul (rd : Reg) (src : Operand)
  /-- DIV Rd, src (R91). -/
  | div (rd : Reg) (src : Operand)
  /-- MOD Rd, src (R92). -/
  | mod (rd : Reg) (src : Operand)
  /-- INC Rd (R93). -/
  | inc (rd : Reg)
  /-- DEC Rd (R94). -/
  | dec (rd : Reg)
  /-- CMP Ra, src (R95). -/
  | cmp (ra : Reg) (src : Operand)
  /-- SWAP Ra, Rb (R96). -/
  | swap (ra rb : Reg)
  /-- AND Rd, src (R98). -/
  | and (rd : Reg) (src : Operand)
  /-- OR Rd, src (R99). -/
  | or (rd : Reg) (src : Operand)
  /-- XOR Rd, src (R100). -/
  | xor (rd : Reg) (src : Operand)
  /-- NOT Rd (R101). -/
  | not (rd : Reg)
  /-- SHL Rd, count (R102). -/
  | shl (rd : Reg) (count : Operand)
  /-- SHR Rd, count (R103). -/
  | shr (rd : Reg) (count : Operand)
  /-- JMP tgt: role 2 target (R108). -/
  | jmp (tgt : Operand)
  /-- JZ tgt, also spelled JEQ (R109). -/
  | jz (tgt : Operand)
  /-- JNZ tgt, also spelled JNE (R110). -/
  | jnz (tgt : Operand)
  /-- JC tgt (R111). -/
  | jc (tgt : Operand)
  /-- JNC tgt (R112). -/
  | jnc (tgt : Operand)
  /-- JL tgt (R113). -/
  | jl (tgt : Operand)
  /-- JLE tgt (R114). -/
  | jle (tgt : Operand)
  /-- JG tgt (R115). -/
  | jg (tgt : Operand)
  /-- JGE tgt (R116). -/
  | jge (tgt : Operand)
  /-- LOOP Rc, tgt: `reg1` counter, role 2 target (R117). -/
  | loop (rc : Reg) (tgt : Operand)
  /-- CALL tgt: role 2 target (R118). -/
  | call (tgt : Operand)
  /-- RET (R119). -/
  | ret
  /-- HLT (R126). -/
  | hlt
  /-- PRINT src: role 1 value (R127). -/
  | print (src : Operand)
  /-- IN Rd, port: `reg1` destination, role 2 port number (R128). -/
  | inPort (rd : Reg) (port : Operand)
  /-- OUT Rs, port: `reg1` value, role 2 port number (R129). -/
  | outPort (rs : Reg) (port : Operand)
  deriving DecidableEq, Repr

/-- The mnemonic of an instruction (R72). -/
def Instr.mnemonic : Instr → Mnemonic
  | .nop => .nop
  | .mov _ _ => .mov
  | .load _ _ => .load
  | .store _ _ => .store
  | .push _ => .push
  | .pop _ => .pop
  | .add _ _ => .add
  | .sub _ _ => .sub
  | .mul _ _ => .mul
  | .div _ _ => .div
  | .mod _ _ => .mod
  | .inc _ => .inc
  | .dec _ => .dec
  | .cmp _ _ => .cmp
  | .swap _ _ => .swap
  | .and _ _ => .and
  | .or _ _ => .or
  | .xor _ _ => .xor
  | .not _ => .not
  | .shl _ _ => .shl
  | .shr _ _ => .shr
  | .jmp _ => .jmp
  | .jz _ => .jz
  | .jnz _ => .jnz
  | .jc _ => .jc
  | .jnc _ => .jnc
  | .jl _ => .jl
  | .jle _ => .jle
  | .jg _ => .jg
  | .jge _ => .jge
  | .loop _ _ => .loop
  | .call _ => .call
  | .ret => .ret
  | .hlt => .hlt
  | .print _ => .print
  | .inPort _ _ => .inPort
  | .outPort _ _ => .outPort

/-- The mode-resolved operand of an instruction, if R70 gives it one. -/
def Instr.operand? : Instr → Option Operand
  | .mov _ o => some o
  | .load _ o => some o
  | .store o _ => some o
  | .push o => some o
  | .add _ o => some o
  | .sub _ o => some o
  | .mul _ o => some o
  | .div _ o => some o
  | .mod _ o => some o
  | .cmp _ o => some o
  | .and _ o => some o
  | .or _ o => some o
  | .xor _ o => some o
  | .shl _ o => some o
  | .shr _ o => some o
  | .jmp o => some o
  | .jz o => some o
  | .jnz o => some o
  | .jc o => some o
  | .jnc o => some o
  | .jl o => some o
  | .jle o => some o
  | .jg o => some o
  | .jge o => some o
  | .loop _ o => some o
  | .call o => some o
  | .print o => some o
  | .inPort _ o => some o
  | .outPort _ o => some o
  | .nop => none
  | .pop _ => none
  | .inc _ => none
  | .dec _ => none
  | .swap _ _ => none
  | .not _ => none
  | .ret => none
  | .hlt => none

end Sys2Proof
end

