-- ==== Sys2Proof/Config.lean ====
section
/-! DEFINITION. What an implementation fixes: the parameters of R8, the segment descriptors of R39 and R41, and the one
free value of the model, the draw of a port 1 read (PORT1_TIME). -/

namespace Sys2Proof

/-- The kind of an access (R44, R26): the codes of R26 are `Access.code`. -/
inductive Access where
  | read | write | execute
  deriving DecidableEq, Repr

/-- The code of an access kind in `ERR.access`: READ 0, WRITE 1, EXECUTE 2 (R26). -/
def Access.code : Access → Nat
  | .read => 0
  | .write => 1
  | .execute => 2

/-- A permission mask (R39): three independent bits. -/
structure Permissions where
  read : Bool
  write : Bool
  execute : Bool
  deriving DecidableEq, Repr

/-- Whether a mask includes an access kind (R44). -/
def Permissions.allows (p : Permissions) : Access → Bool
  | .read => p.read
  | .write => p.write
  | .execute => p.execute

/-- The mask as the host interface encodes it: READ bit 0, WRITE bit 1, EXECUTE bit 2 (R39, D5). -/
def Permissions.ofMask (m : BitVec 3) : Permissions :=
  { read := m.getLsbD 0, write := m.getLsbD 1, execute := m.getLsbD 2 }

/-- A segment descriptor (R39). The name is for diagnostics: no rule reads it. -/
structure Segment where
  name : String
  base : Word
  size : Word
  perms : Permissions
  deriving DecidableEq, Repr

/-- A segment covers a byte address when it lies in `[base, base + size)`, the sum taken without wrap-around (R42). -/
def Segment.covers (g : Segment) (a : Nat) : Bool :=
  decide (g.base.toNat ≤ a ∧ a < g.base.toNat + g.size.toNat)

/-- The parameter MOV_WRITEBACK (R8, R69). -/
inductive WriteBack where
  | reg1 | symmetric
  deriving DecidableEq, Repr

/-- The implementation parameters of R8, fixed when the machine is constructed (R147). -/
structure Config where
  /-- MEMORY_SIZE, in bytes. -/
  memorySize : Nat
  /-- OPCODE_MAP. -/
  opcodeMap : List (Mnemonic × BitVec 8)
  /-- MOV_WRITEBACK. -/
  movWriteBack : WriteBack
  /-- LOGIC_PRESERVES_CV. -/
  logicPreservesCV : Bool
  /-- FETCH_CHECKS_EXECUTE. -/
  fetchChecksExecute : Bool
  /-- PARTIAL_WRITE. -/
  partialWrite : Bool
  /-- STRICT_DECODE. -/
  strictDecode : Bool
  /-- INTERRUPT_ENTRY. -/
  interruptEntry : Bool
  /-- INIT_SEGMENTS. -/
  initSegments : List Segment
  deriving DecidableEq, Repr

/-- The default opcode map: the table of R72. -/
def defaultOpcodeMap : List (Mnemonic × BitVec 8) :=
  [(.nop, 0x00), (.mov, 0x01), (.load, 0x02), (.store, 0x03), (.push, 0x04), (.pop, 0x05),
   (.add, 0x10), (.sub, 0x11), (.mul, 0x12), (.div, 0x13), (.mod, 0x14), (.inc, 0x15),
   (.dec, 0x16), (.cmp, 0x17), (.swap, 0x18),
   (.and, 0x20), (.or, 0x21), (.xor, 0x22), (.not, 0x23), (.shl, 0x24), (.shr, 0x25),
   (.jmp, 0x30), (.jz, 0x31), (.jnz, 0x32), (.jc, 0x33), (.jnc, 0x34), (.jl, 0x35),
   (.jle, 0x36), (.jg, 0x37), (.jge, 0x38), (.loop, 0x39), (.call, 0x3A), (.ret, 0x3B),
   (.hlt, 0x40), (.print, 0x41), (.inPort, 0x42), (.outPort, 0x43)]

/-- The four default segments for a memory of `size` bytes (R41, C1: the second number of a pair is a size). -/
def defaultSegments (size : Nat) : List Segment :=
  [{ name := "CODE", base := 0x000000, size := 0x100000, perms := ⟨true, true, true⟩ },
   { name := "DATA", base := 0x100000, size := 0x100000, perms := ⟨true, true, false⟩ },
   { name := "HEAP", base := 0x200000, size := 0x100000, perms := ⟨true, true, false⟩ },
   { name := "STACK", base := BitVec.ofNat 64 (size - 0x100000), size := 0x100000,
     perms := ⟨true, true, false⟩ }]

/-- The default parameters of R8 for a memory of `size` bytes. -/
def Config.defaults (size : Nat) : Config :=
  { memorySize := size
    opcodeMap := defaultOpcodeMap
    movWriteBack := .reg1
    logicPreservesCV := false
    fetchChecksExecute := false
    partialWrite := false
    strictDecode := true
    interruptEntry := false
    initSegments := defaultSegments size }

/-- MEMORY_SIZE of the machine of `State.reset`. DESIGN CHOICE, unsafe (log 1): the spec leaves it open (D4); this is the
size of its examples and vectors (D46). -/
def resetMemorySize : Nat := 0x800000

/-- PORT1_TIME: the value the `k`-th port 1 read draws, any 32-bit value, with no relation between two draws (R123, D28).
A free value: it has no body, so nothing can be proved of it (log 5). -/
opaque Config.port1Time : Nat → BitVec 32

end Sys2Proof
end

