-- ==== Sys2Proof/Machine/Bytes.lean ====
section
/-! DEFINITION. Byte order: how a value is composed from bytes and cut into bytes, little-endian (R47, R48, R50). -/

namespace Sys2Proof

/-- The value of a list of bytes, the first byte in bits 7..0: the sum of R47, upper bytes zero. -/
def wordOfBytes : List Byte → Word
  | [] => 0
  | b :: bs => (wordOfBytes bs <<< 8) ||| b.setWidth 64

/-- The low `n` bytes of a value, lowest byte first: byte `i` is `v[8*i+7 : 8*i]` (R48). -/
def bytesOfWord : Nat → Word → List Byte
  | 0, _ => []
  | n + 1, v => v.setWidth 8 :: bytesOfWord n (v >>> 8)

end Sys2Proof
end

