-- ==== Sys2Proof/WellFormed.lean ====
section
/-! DEFINITION. Which configurations and which instructions are well formed: the bounds and the injectivity of R8, and
operand modes a decoder can produce under STRICT_DECODE (R73). Field widths are enforced by the types. -/

namespace Sys2Proof

/-- MEMORY_SIZE lies in 0x100000 .. 2^64 - 1 (R8, D4). -/
def Config.memorySizeOk (c : Config) : Bool :=
  decide (0x100000 ≤ c.memorySize ∧ c.memorySize ≤ 2 ^ 64 - 1)

/-- OPCODE_MAP is an injective map from the 37 mnemonics (R8): every mnemonic has an opcode, and no mnemonic and no
opcode stands twice. -/
def Config.opcodeMapOk (c : Config) : Bool :=
  decide ((c.opcodeMap.map Prod.fst).Nodup ∧ (c.opcodeMap.map Prod.snd).Nodup) &&
    Mnemonic.all.all fun m => (c.opcodeMap.map Prod.fst).contains m

/-- A configuration R8 allows. -/
def Config.wf (c : Config) : Bool :=
  c.memorySizeOk && c.opcodeMapOk

/-- An operand the decoder can produce: an undefined mode only when STRICT_DECODE is false, and then in 4..15 (R73). -/
def Operand.wf (strict : Bool) : Operand → Bool
  | .undefinedMode m => !strict && decide (4 ≤ m.toNat)
  | .register _ => true
  | .immediate _ => true
  | .memory _ => true
  | .registerIndirect _ => true

/-- A well-formed instruction: its mode-resolved operand, if it has one, is well formed. -/
def Instr.wf (strict : Bool) (i : Instr) : Bool :=
  match i.operand? with
  | some o => o.wf strict
  | none => true

end Sys2Proof
end

