-- ==== Sys2Proof/Decode.lean ====
section
/-! DEFINITION. The decoder, a total function from words (and from bytes) to an instruction or a rejection by name
(R64, R73, R75), and the encoder (R65). -/

namespace Sys2Proof

/-- The opcode of a mnemonic under an opcode map (R72); 0 where the map lacks it (no well-formed map does). -/
def Config.opcodeOf (c : Config) (m : Mnemonic) : BitVec 8 :=
  ((c.opcodeMap.find? fun p => p.1 == m).map Prod.snd).getD 0

/-- The mnemonic of an opcode byte, the inverse of the map (R75); none where no mnemonic has it. -/
def Config.mnemonicOf (c : Config) (op : BitVec 8) : Option Mnemonic :=
  (c.opcodeMap.find? fun p => p.2 == op).map Prod.fst

/-- The fields of an instruction word (R11, R64). -/
structure Fields where
  opcode : BitVec 8
  mode : BitVec 4
  reg1 : Reg
  reg2 : Reg
  rsvd : BitVec 12
  imm : BitVec 32
  deriving DecidableEq, Repr

/-- Cut a word into its fields (R64). -/
def cutFields (w : Word) : Fields :=
  { opcode := w.extractLsb' 56 8
    mode := w.extractLsb' 52 4
    reg1 := (w.extractLsb' 48 4).toFin
    reg2 := (w.extractLsb' 44 4).toFin
    rsvd := w.extractLsb' 32 12
    imm := w.extractLsb' 0 32 }

/-- The operand a mode selects, `r` the register of its role (R67, R68). -/
def operandOf (mode : BitVec 4) (r : Reg) (imm : BitVec 32) : Operand :=
  if mode = 0 then .register r
  else if mode = 1 then .immediate imm
  else if mode = 2 then .memory imm
  else if mode = 3 then .registerIndirect r
  else .undefinedMode mode

/-- The role 1 operand: its register is `reg1` (R68). -/
def Fields.role1 (d : Fields) : Operand := operandOf d.mode d.reg1 d.imm

/-- The role 2 operand: its register is `reg2` (R68). -/
def Fields.role2 (d : Fields) : Operand := operandOf d.mode d.reg2 d.imm

/-- The instruction a mnemonic and the fields it uses make (R70). Fields it does not use are dropped (R71). -/
def instrOf (m : Mnemonic) (d : Fields) : Instr :=
  match m with
  | .nop => .nop
  | .mov => .mov d.reg1 d.role2
  | .load => .load d.reg1 d.role2
  | .store => .store d.role1 d.reg2
  | .push => .push d.role1
  | .pop => .pop d.reg1
  | .add => .add d.reg1 d.role2
  | .sub => .sub d.reg1 d.role2
  | .mul => .mul d.reg1 d.role2
  | .div => .div d.reg1 d.role2
  | .mod => .mod d.reg1 d.role2
  | .inc => .inc d.reg1
  | .dec => .dec d.reg1
  | .cmp => .cmp d.reg1 d.role2
  | .swap => .swap d.reg1 d.reg2
  | .and => .and d.reg1 d.role2
  | .or => .or d.reg1 d.role2
  | .xor => .xor d.reg1 d.role2
  | .not => .not d.reg1
  | .shl => .shl d.reg1 d.role2
  | .shr => .shr d.reg1 d.role2
  | .jmp => .jmp d.role2
  | .jz => .jz d.role2
  | .jnz => .jnz d.role2
  | .jc => .jc d.role2
  | .jnc => .jnc d.role2
  | .jl => .jl d.role2
  | .jle => .jle d.role2
  | .jg => .jg d.role2
  | .jge => .jge d.role2
  | .loop => .loop d.reg1 d.role2
  | .call => .call d.role2
  | .ret => .ret
  | .hlt => .hlt
  | .print => .print d.role1
  | .inPort => .inPort d.reg1 d.role2
  | .outPort => .outPort d.reg1 d.role2

/-- Why a word or a string of bytes is no instruction. The first three make a word illegal (R73); `truncated` is a string
of fewer than 8 bytes, which no fetch produces (R63). -/
inductive Illegal where
  /-- The opcode byte is not in the map (R73 a). -/
  | unknownOpcode (op : BitVec 8)
  /-- The mode is in 4..15 under STRICT_DECODE (R73 b). -/
  | reservedMode (mode : BitVec 4)
  /-- The field that must be 0 is not, under STRICT_DECODE (R73 c). -/
  | nonzeroReserved (rsvd : BitVec 12)
  /-- Fewer than 8 bytes. -/
  | truncated
  deriving DecidableEq, Repr

/-- What the decoder answers for the fields of a word: the opcode is checked first, then under STRICT_DECODE the mode and
the reserved field (R73, R75). -/
def decodeFields (c : Config) (d : Fields) : Except Illegal Instr :=
  match c.mnemonicOf d.opcode with
  | none => .error (.unknownOpcode d.opcode)
  | some m =>
    if c.strictDecode = true ∧ 3 < d.mode.toNat then .error (.reservedMode d.mode)
    else if c.strictDecode = true ∧ d.rsvd ≠ 0 then .error (.nonzeroReserved d.rsvd)
    else .ok (instrOf m d)

/-- The decoder (R75). -/
def decode (c : Config) (w : Word) : Except Illegal Instr :=
  decodeFields c (cutFields w)

/-- The decoder on bytes in memory order: an instruction is the little-endian word of the first 8 bytes (R50, R63, R66).
It answers the instruction and the bytes after it. -/
def decodeBytes (c : Config) : List Byte → Except Illegal (Instr × List Byte)
  | b0 :: b1 :: b2 :: b3 :: b4 :: b5 :: b6 :: b7 :: rest =>
    match decode c (wordOfBytes [b0, b1, b2, b3, b4, b5, b6, b7]) with
    | .ok i => .ok (i, rest)
    | .error e => .error e
  | _ => .error .truncated

/-- The word whose fields are these, `rsvd` 0 (R65). -/
def packFields (op : BitVec 8) (mode : BitVec 4) (reg1 reg2 : Reg) (imm : BitVec 32) : Word :=
  op ++ mode ++ BitVec.ofFin (w := 4) reg1 ++ BitVec.ofFin (w := 4) reg2 ++ (0 : BitVec 12) ++ imm

/-- The mode field that selects an operand form (R67). -/
def Operand.modeField : Operand → BitVec 4
  | .register _ => 0
  | .immediate _ => 1
  | .memory _ => 2
  | .registerIndirect _ => 3
  | .undefinedMode m => m

/-- The register field of an operand's role; 0 where the form uses none (R65, R71). -/
def Operand.regField : Operand → Reg
  | .register r => r
  | .registerIndirect r => r
  | .immediate _ => 0
  | .memory _ => 0
  | .undefinedMode _ => 0

/-- The immediate field of an operand; 0 where the form uses none (R65, R71). -/
def Operand.immField : Operand → BitVec 32
  | .immediate v => v
  | .memory a => a
  | .register _ => 0
  | .registerIndirect _ => 0
  | .undefinedMode _ => 0

/-- A word with no mode-resolved operand: mode and immediate 0. -/
def Config.packRegs (c : Config) (m : Mnemonic) (reg1 reg2 : Reg) : Word :=
  packFields (c.opcodeOf m) 0 reg1 reg2 0

/-- A word with a role 1 operand; `reg2` is given. -/
def Config.packRole1 (c : Config) (m : Mnemonic) (o : Operand) (reg2 : Reg) : Word :=
  packFields (c.opcodeOf m) o.modeField o.regField reg2 o.immField

/-- A word with a role 2 operand; `reg1` is given. -/
def Config.packRole2 (c : Config) (m : Mnemonic) (reg1 : Reg) (o : Operand) : Word :=
  packFields (c.opcodeOf m) o.modeField reg1 o.regField o.immField

/-- The encoder (R65): every field the instruction does not use is 0. -/
def encode (c : Config) (i : Instr) : Word :=
  match i with
  | .nop => c.packRegs .nop 0 0
  | .mov rd o => c.packRole2 .mov rd o
  | .load rd o => c.packRole2 .load rd o
  | .store o rs => c.packRole1 .store o rs
  | .push o => c.packRole1 .push o 0
  | .pop rd => c.packRegs .pop rd 0
  | .add rd o => c.packRole2 .add rd o
  | .sub rd o => c.packRole2 .sub rd o
  | .mul rd o => c.packRole2 .mul rd o
  | .div rd o => c.packRole2 .div rd o
  | .mod rd o => c.packRole2 .mod rd o
  | .inc rd => c.packRegs .inc rd 0
  | .dec rd => c.packRegs .dec rd 0
  | .cmp ra o => c.packRole2 .cmp ra o
  | .swap ra rb => c.packRegs .swap ra rb
  | .and rd o => c.packRole2 .and rd o
  | .or rd o => c.packRole2 .or rd o
  | .xor rd o => c.packRole2 .xor rd o
  | .not rd => c.packRegs .not rd 0
  | .shl rd o => c.packRole2 .shl rd o
  | .shr rd o => c.packRole2 .shr rd o
  | .jmp o => c.packRole2 .jmp 0 o
  | .jz o => c.packRole2 .jz 0 o
  | .jnz o => c.packRole2 .jnz 0 o
  | .jc o => c.packRole2 .jc 0 o
  | .jnc o => c.packRole2 .jnc 0 o
  | .jl o => c.packRole2 .jl 0 o
  | .jle o => c.packRole2 .jle 0 o
  | .jg o => c.packRole2 .jg 0 o
  | .jge o => c.packRole2 .jge 0 o
  | .loop rc o => c.packRole2 .loop rc o
  | .call o => c.packRole2 .call 0 o
  | .ret => c.packRegs .ret 0 0
  | .hlt => c.packRegs .hlt 0 0
  | .print o => c.packRole1 .print o 0
  | .inPort rd o => c.packRole2 .inPort rd o
  | .outPort rs o => c.packRole2 .outPort rs o

/-- The instruction's 8 bytes in memory order (R66). -/
def encodeBytes (c : Config) (i : Instr) : List Byte :=
  bytesOfWord 8 (encode c i)

/-- The low `nbits` bits of `w` as an instruction word; every bit above them is 0. -/
def tableWord (nbits w : Nat) : Word :=
  BitVec.ofNat 64 (w % 2 ^ nbits)

/-- The instruction the decoder reads from the bits `w`, numbered as the opcode table numbers them, under the default
parameters of R8; the word is laid out in memory order first (R66). -/
def decodeTableWord (nbits w : Nat) : Option Instr :=
  match decodeBytes (Config.defaults resetMemorySize) (bytesOfWord 8 (tableWord nbits w)) with
  | .ok (i, _) => some i
  | .error _ => none

end Sys2Proof
end

