-- ==== Sys2Proof/Machine/State.lean ====
section
/-! DEFINITION. The state of the core (R16), as plain data, the machine right after construction (R147, R148), and the
reasons for which something of the model stops. -/

namespace Sys2Proof.Machine

/-- The flag word of R28 as its five bits; bits 63..5 read as 0 and are not stored. -/
structure Flags where
  /-- ZERO, bit 0. -/
  z : Bool
  /-- CARRY, bit 1. -/
  c : Bool
  /-- NEGATIVE, bit 2. -/
  n : Bool
  /-- OVERFLOW, bit 3. -/
  v : Bool
  /-- INTERRUPT, bit 4: no instruction reads or writes it (R29). -/
  i : Bool
  deriving DecidableEq, Repr

/-- The kinds of the error register (R26). -/
inductive ErrKind where
  | none | badAddress | accessViolation | illegalOpcode | divisionByZero
  deriving DecidableEq, Repr

/-- The code of an error kind (R26, D21). -/
def ErrKind.code : ErrKind → Nat
  | .none => 0
  | .badAddress => 1
  | .accessViolation => 2
  | .illegalOpcode => 3
  | .divisionByZero => 4

/-- The error register `ERR` (R26). An access that is "otherwise 0" is READ, whose code is 0 (log 12). -/
structure ErrReg where
  kind : ErrKind
  access : Access
  addr : Word
  deriving DecidableEq, Repr

/-- `ERR` when no error is recorded: (NONE, 0, 0). -/
def ErrReg.clear : ErrReg := { kind := .none, access := .read, addr := 0 }

/-- The events of the trace (R123, R124, R125), each with the whole 64-bit value. -/
inductive Event where
  /-- `Read(p, v)`: a read of port 0 or 1. -/
  | portRead (port : Word) (value : Word)
  /-- `Write(p, v)`: a write of port 0 or 1. -/
  | portWrite (port : Word) (value : Word)
  /-- `Print(v)`: an output on the diagnostic channel. -/
  | print (value : Word)
  deriving DecidableEq, Repr

/-- The byte array, as the list of its non-zero bytes: addresses strictly rising, no byte 0. -/
abbrev Memory := List Host.Cell

/-- The state of the core: the tuple of R16, the parameters it runs under (R8), the event trace (R147), and the two
things a port read depends on (R123). -/
structure State where
  /-- The implementation parameters, fixed at construction (R8, R147). -/
  config : Config
  /-- The general registers x[0..15] (R17). -/
  regs : Vector Word 16
  /-- The program counter (R20). -/
  pc : Word
  /-- The stack pointer (R23). -/
  sp : Word
  /-- The flag word (R28). -/
  flags : Flags
  /-- `running`, the bit that enables steps (R25). -/
  running : Bool
  /-- The error register (R26). -/
  err : ErrReg
  /-- The byte array (R37). -/
  mem : Memory
  /-- The segment table, in insertion order (R40). -/
  segments : List Segment
  /-- The event trace, oldest first (R125, R147, R162). -/
  trace : List Event
  /-- The values of PORT0_INPUT the host has supplied and no read has taken, oldest first (R123; log 6). -/
  port0Input : List Word
  /-- The MODEL's own counter of port 1 reads: the argument of the next free draw (R123; log 5). -/
  port1Draws : Nat
  /-- An `IN` from port 0 whose step holds until the host supplies a value, with its destination (R123, D40; log 3). -/
  portWait : Option Reg
  deriving DecidableEq, Repr

/-- Why something stops with a fault. No step of the machine does: every error of R130 halts it with a NEXT state that
holds `ERR` (R132). -/
inductive Fault where
  /-- Raised by the bounded run (`State.runSteps`) alone, when its step count is used up while the core still runs
  (93_implementation_defined.md row 16). Safe: it reports no value and no step raises it. -/
  | outOfFuel
  deriving DecidableEq, Repr

/-- Why something is refused. No modelled instruction is: these are host actions the spec says the model does not admit. -/
inductive Refusal where
  /-- Raised by an arm of `exec` for an instruction that has no meaning yet. Safe. No arm of this model does. -/
  | notModelled (mnemonic : String)
  /-- Raised by construction for a configuration outside the bounds of R8 (93_implementation_defined.md rows 1, 2). Safe. -/
  | configurationRefused
  /-- Raised by a host command given while a step holds on port 0: such behaviour has no move (R161, R163). Safe. -/
  | hostCommandDuringStep
  /-- Raised by handle_interrupt when INTERRUPT_ENTRY is false: the action does not exist then (R138). Safe. -/
  | interruptEntryAbsent
  deriving DecidableEq, Repr

/-- The machine right after construction with the parameters `c` (R147, R148). -/
def State.construct (c : Config) : State :=
  { config := c
    regs := Vector.replicate 16 0
    pc := 0
    sp := BitVec.ofNat 64 (c.memorySize - 16)
    flags := { z := false, c := false, n := false, v := false, i := false }
    running := false
    err := ErrReg.clear
    mem := []
    segments := c.initSegments
    trace := []
    port0Input := []
    port1Draws := 0
    portWait := none }

/-- The machine right after reset: construction with the default parameters (R8, R147, R148). The memory size is a
DESIGN CHOICE (log 1). -/
def State.reset : State := State.construct (Config.defaults resetMemorySize)

end Sys2Proof.Machine
end

