-- ==== Sys2Proof/Machine/Memory.lean ====
section
/-! DEFINITION. The byte array (R37): reading and writing one byte, and strings of bytes at rising addresses. -/

namespace Sys2Proof.Machine

/-- What a byte that the list does not hold reads as: 0, the contents after construction and reset (R37). -/
def unlistedByte : Byte := 0

/-- The byte at an address (R37). -/
def Memory.read (m : Memory) (a : Nat) : Byte :=
  match m with
  | [] => unlistedByte
  | (k, b) :: rest => if k = a then b else Memory.read rest a

/-- Put a byte into the list at its place, unchecked for canonical form. -/
def Memory.insert (m : Memory) (a : Nat) (b : Byte) : Memory :=
  match m with
  | [] => [(a, b)]
  | (k, x) :: rest =>
    if a < k then (a, b) :: (k, x) :: rest
    else if a = k then (a, b) :: rest
    else (k, x) :: Memory.insert rest a b

/-- Take the entry of an address out of the list. -/
def Memory.erase (m : Memory) (a : Nat) : Memory :=
  m.filter fun cell => cell.1 != a

/-- Write one byte (R48): writing the byte an unlisted address reads as takes the entry out. -/
def Memory.write (m : Memory) (a : Nat) (b : Byte) : Memory :=
  if b = unlistedByte then m.erase a else m.insert a b

/-- The `n` bytes at rising addresses from `a`, lowest address first (R47). -/
def Memory.readBytes (m : Memory) (a : Nat) : Nat → List Byte
  | 0 => []
  | n + 1 => m.read a :: m.readBytes (a + 1) n

/-- Write bytes at rising addresses from `a`, the first byte at `a` (R48). -/
def Memory.writeBytes (m : Memory) (a : Nat) : List Byte → Memory
  | [] => m
  | b :: bs => (m.write a b).writeBytes (a + 1) bs

/-- The canonical form: addresses strictly rise, and no entry holds the byte an unlisted address reads as. -/
def Memory.wf (m : Memory) : Bool :=
  decide ((m.map Prod.fst).Pairwise (· < ·)) && m.all fun cell => cell.2 != unlistedByte

/-- Every listed address lies inside a memory of `size` bytes (R37). -/
def Memory.within (m : Memory) (size : Nat) : Bool :=
  m.all fun cell => decide (cell.1 < size)

end Sys2Proof.Machine
end

