-- ==== Sys2Proof/Machine/Ops.lean ====
section
/-! DEFINITION. The named operations over registers and memory: the checked accesses of R46 to R49, the stack of R79 and
R80, raising an error (R132) and resuming after one (R135), interrupt entry (R138), and the fetch (R76). -/

namespace Sys2Proof.Machine

/-! ## Registers -/

/-- Read a general register: `x[r]` (R17). No register is hardwired. -/
def State.reg (s : State) (r : Reg) : Word := s.regs[r.val]

/-- Write a general register: `x[r] <- v` (R17). -/
def State.setReg (s : State) (r : Reg) (v : Word) : State :=
  { s with regs := s.regs.set r.val v }

/-! ## Errors -/

/-- An error with what `ERR` records of it (R130). -/
inductive Err where
  /-- The access that starts at `addr` leaves memory. -/
  | badAddress (addr : Word)
  /-- The byte at `addr` denies `access`. -/
  | accessViolation (access : Access) (addr : Word)
  /-- The instruction at `ia` is illegal. -/
  | illegalOpcode (ia : Word)
  /-- The instruction at `ia` divides by zero. -/
  | divisionByZero (ia : Word)
  deriving DecidableEq, Repr

/-- What `ERR` holds after an error is raised (R130, R132). -/
def Err.toReg : Err → ErrReg
  | .badAddress a => { kind := .badAddress, access := .read, addr := a }
  | .accessViolation k a => { kind := .accessViolation, access := k, addr := a }
  | .illegalOpcode ia => { kind := .illegalOpcode, access := .read, addr := ia }
  | .divisionByZero ia => { kind := .divisionByZero, access := .read, addr := ia }

/-- Taking an error: `ERR` is written and `running` cleared, nothing else (R132). `pc` keeps its value at the error. -/
def State.raise (s : State) (e : Err) : State :=
  { s with err := e.toReg, running := false }

/-- Going on after an error, and the start of every run: `ERR` is cleared, `running` set, `pc` kept (R135, R154). -/
def State.resume (s : State) : State :=
  { s with err := ErrReg.clear, running := true }

/-- What an operation that can raise comes to: a value, or an error and the state it leaves, which is the state before
the operation but for bytes a partial write has written (R133). -/
inductive Attempt (α : Type) where
  | done (a : α)
  | raised (e : Err) (left : State)
  deriving DecidableEq, Repr

/-- Go on with the value of an operation; an error ends the instruction at once (R10). -/
def Attempt.bind {α β : Type} (x : Attempt α) (f : α → Attempt β) : Attempt β :=
  match x with
  | .done a => f a
  | .raised e left => .raised e left

/-- How an instruction ends: the state it reached, or the error it raised, taken (R132). Both are next states. -/
def Attempt.finish (x : Attempt State) : Host.Outcome State Fault Refusal :=
  match x with
  | .done s => .next s
  | .raised e left => .next (left.raise e)

/-- The address of the instruction in execution: `pc` already holds it plus 8, modulo 2^64 (R21, R76; log 9). -/
def State.instrAddr (s : State) : Word := s.pc - 8

/-! ## Checked accesses -/

/-- The first segment in table order that covers a byte address (R43). -/
def State.lookup (s : State) (a : Nat) : Option Segment :=
  s.segments.find? fun g => g.covers a

/-- `Permitted(a, kind)`: some segment covers the byte, and the first one that does grants the kind (R44). -/
def State.permitted (s : State) (k : Access) (a : Nat) : Bool :=
  match s.lookup a with
  | some g => g.perms.allows k
  | none => false

/-- The lowest of the `n` byte addresses from `a` that denies the kind, if one does (R47, R48). -/
def State.firstDenied (s : State) (k : Access) (a : Nat) : Nat → Option Nat
  | 0 => none
  | n + 1 => if s.permitted k a then s.firstDenied k (a + 1) n else some a

/-- An access of `n` bytes at `addr` leaves memory; the sum does not wrap (R46). -/
def State.outOfBounds (s : State) (addr : Word) (n : Nat) : Bool :=
  decide (s.config.memorySize < addr.toNat + n)

/-- `MemRead(addr, n)`: bounds first, then READ for each byte, then the little-endian value (R47). -/
def State.memRead (s : State) (addr : Word) (n : Nat) : Attempt Word :=
  if s.outOfBounds addr n then .raised (.badAddress addr) s
  else
    match s.firstDenied .read addr.toNat n with
    | some a => .raised (.accessViolation .read (BitVec.ofNat 64 a)) s
    | none => .done (wordOfBytes (s.mem.readBytes addr.toNat n))

/-- Put bytes into memory at rising addresses, no check. -/
def State.poke (s : State) (a : Nat) (bs : List Byte) : State :=
  { s with mem := s.mem.writeBytes a bs }

/-- `MemWrite(addr, n, v)`: bounds first, then WRITE for each byte, then the low `n` bytes of `v`. A denied byte leaves
memory as it was, but under PARTIAL_WRITE the bytes below it are written (R48; log 10). -/
def State.memWrite (s : State) (addr : Word) (n : Nat) (v : Word) : Attempt State :=
  if s.outOfBounds addr n then .raised (.badAddress addr) s
  else
    match s.firstDenied .write addr.toNat n with
    | some a =>
      .raised (.accessViolation .write (BitVec.ofNat 64 a))
        (if s.config.partialWrite then
          s.poke addr.toNat ((bytesOfWord n v).take (a - addr.toNat))
        else s)
    | none => .done (s.poke addr.toNat (bytesOfWord n v))

/-- `MemFetch(addr)`: an 8-byte read; under FETCH_CHECKS_EXECUTE each byte must grant EXECUTE too (R49). -/
def State.memFetch (s : State) (addr : Word) : Attempt Word :=
  (s.memRead addr 8).bind fun w =>
    if s.config.fetchChecksExecute then
      match s.firstDenied .execute addr.toNat 8 with
      | some a => .raised (.accessViolation .execute (BitVec.ofNat 64 a)) s
      | none => .done w
    else .done w

/-! ## Stack -/

/-- `Push(v)`: `sp` moves down by 8 only if the write at the new place succeeds (R79). -/
def State.push (s : State) (v : Word) : Attempt State :=
  (s.memWrite (s.sp - 8) 8 v).bind fun t => .done { t with sp := s.sp - 8 }

/-- `Pop()`: the word at `sp`, and the state with `sp` moved up by 8 (R80). -/
def State.pop (s : State) : Attempt (Word × State) :=
  (s.memRead s.sp 8).bind fun v => .done (v, { s with sp := s.sp + 8 })

/-! ## Interrupt entry -/

/-- The flag word as a 64-bit value: Z, C, N, V, I in bits 0..4, the rest 0 (R28). -/
def Flags.word (f : Flags) : Word :=
  BitVec.ofNat 64 (f.z.toNat + 2 * f.c.toNat + 4 * f.n.toNat + 8 * f.v.toNat + 16 * f.i.toNat)

/-- The accesses of interrupt entry `n`: push `pc`, push the flag word, read the vector at `8 * n`, clear I (R138). -/
def State.enterHandler (s : State) (n : Nat) : Attempt State :=
  (s.push s.pc).bind fun s1 =>
  (s1.push s1.flags.word).bind fun s2 =>
  (s2.memRead (BitVec.ofNat 64 (8 * n)) 8).bind fun v =>
  .done { s2 with pc := v, flags := { s2.flags with i := false } }

/-- `InterruptEntry(n)`: all or nothing; an error is taken in the state before the sequence (R138). -/
def State.interruptEntry (s : State) (n : Nat) : State :=
  match s.enterHandler n with
  | .done t => t
  | .raised e _ => s.raise e

/-! ## Fetch -/

/-- The fetch of R76: the word at `pc`, and the state with `pc` advanced by 8 modulo 2^64. An error leaves `pc`. -/
def State.fetch (s : State) : Attempt (Word × State) :=
  (s.memFetch s.pc).bind fun w => .done (w, { s with pc := s.pc + 8 })

end Sys2Proof.Machine
end

