-- ==== Sys2Proof/Machine/Controller.lean ====
section
/-! DEFINITION. What the fetch-execute controller does before it executes an instruction (R76). -/

namespace Sys2Proof.Machine

/-- What a step finds to do (R76). -/
inductive Phase where
  /-- The core is not running. -/
  | halted
  /-- An `IN` from port 0 holds its step, with this destination (D40). -/
  | holding (rd : Reg)
  /-- The fetch raised; `pc` is unchanged. -/
  | fetchFailed (e : Err)
  /-- The word is illegal; the state has `pc` advanced (R134). -/
  | illegal (s : State)
  /-- This instruction is to be executed in this state, `pc` advanced. -/
  | execute (i : Instr) (s : State)
  deriving DecidableEq, Repr

/-- Fetch and decode (R76). -/
def State.phase (s : State) : Phase :=
  match s.running, s.portWait with
  | false, _ => .halted
  | true, some rd => .holding rd
  | true, none =>
    match s.fetch with
    | .raised e _ => .fetchFailed e
    | .done (w, s1) =>
      match decode s.config w with
      | .error _ => .illegal s1
      | .ok i => .execute i s1

/-- Put a word at `pc` in memory order (R66), where it fits into memory, and let the core run with no step held. -/
def State.placeAtPc (s : State) (w : Word) : State :=
  if s.outOfBounds s.pc 8 then { s with running := true, portWait := none }
  else { s.poke s.pc.toNat (bytesOfWord 8 w) with running := true, portWait := none }

end Sys2Proof.Machine
end

