-- ==== Sys2Proof/Machine/Flags.lean ====
section
/-! DEFINITION. The flag derivator: `SetFlags` (R31) and `SetFlagsLogic` (R32). -/

namespace Sys2Proof.Machine

/-- The condition flags of a result, a carry and an overflow; I is kept (R31). -/
def Flags.derive (f : Flags) (r : Word) (c v : Bool) : Flags :=
  { z := decide (r = 0), c := c, n := r.getLsbD 63, v := v, i := f.i }

/-- `SetFlags(r, c, v)` (R31). -/
def State.setFlags (s : State) (r : Word) (c v : Bool) : State :=
  { s with flags := s.flags.derive r c v }

/-- `SetFlagsLogic(r)`: C and V are cleared, or kept under LOGIC_PRESERVES_CV (R32). -/
def State.setFlagsLogic (s : State) (r : Word) : State :=
  if s.config.logicPreservesCV then s.setFlags r s.flags.c s.flags.v
  else s.setFlags r false false

end Sys2Proof.Machine
end

