-- ==== Sys2Proof/Machine/Operands.lean ====
section
/-! DEFINITION. Resolving an operand (R68) and writing one back (R69). -/

namespace Sys2Proof.Machine

/-- `ReadOperand`: the value of a mode-resolved operand (R68). -/
def State.readOperand (s : State) (o : Operand) : Attempt Word :=
  match o with
  | .register r => .done (s.reg r)
  | .immediate v => .done (v.setWidth 64)
  | .memory a => s.memRead (a.setWidth 64) 8
  | .registerIndirect r => s.memRead (s.reg r) 8
  | .undefinedMode _ => .raised (.illegalOpcode s.instrAddr) s

/-- `WriteOperand`: write `v` back under the mode and immediate of `o`, with `r` the register of the role and `reg1` the
register an IMMEDIATE destination falls through to (R69). -/
def State.writeOperand (s : State) (o : Operand) (r reg1 : Reg) (v : Word) : Attempt State :=
  match o with
  | .register _ => .done (s.setReg r v)
  | .immediate _ => .done (s.setReg reg1 v)
  | .memory a => s.memWrite (a.setWidth 64) 8 v
  | .registerIndirect _ => s.memWrite (s.reg r) 8 v
  | .undefinedMode _ => .raised (.illegalOpcode s.instrAddr) s

/-- Resolve an operand, then go on with its value; an error of the read is taken. -/
def State.withOperand (s : State) (o : Operand) (k : Word → Attempt State) :
    Host.Outcome State Fault Refusal :=
  ((s.readOperand o).bind k).finish

end Sys2Proof.Machine
end

