-- ==== Sys2Proof/Machine/Alu.lean ====
section
/-! DEFINITION. The ALU (R87): the result, carry and overflow of each operation, and the shared shapes of the arithmetic and
logical instructions (R86, R97). -/

namespace Sys2Proof.Machine

/-- What the ALU answers: `Alu(op, a, b) → (result, carry, overflow)` (R13). -/
structure AluResult where
  result : Word
  carry : Bool
  overflow : Bool
  deriving DecidableEq, Repr

/-- Addition: carry out of bit 63 (R88). -/
def aluAdd (a b : Word) : AluResult :=
  { result := a + b, carry := decide (2 ^ 64 ≤ a.toNat + b.toNat), overflow := false }

/-- Subtraction: carry is the borrow (R89). -/
def aluSub (a b : Word) : AluResult :=
  { result := a - b, carry := decide (a.toNat < b.toNat), overflow := false }

/-- Multiplication: the low half; overflow when `b ≠ 0` and the low half divided by `b` is not `a` (R90). -/
def aluMul (a b : Word) : AluResult :=
  { result := a * b, carry := false, overflow := decide (b ≠ 0 ∧ (a * b).toNat / b.toNat ≠ a.toNat) }

/-- Unsigned quotient, rounded toward zero (R87 d, R91). PRESUMED: the rounding (log 19). -/
def aluDiv (a b : Word) : AluResult :=
  { result := BitVec.ofNat 64 (a.toNat / b.toNat), carry := false, overflow := false }

/-- Unsigned remainder `a - b * floor(a / b)` (R87 d, R92). PRESUMED: the rounding (log 19). -/
def aluMod (a b : Word) : AluResult :=
  { result := a - b * BitVec.ofNat 64 (a.toNat / b.toNat), carry := false, overflow := false }

/-- The shift count: the low 6 bits of the operand (R102, R103). -/
def shiftCount (b : Word) : Nat := (b.extractLsb' 0 6).toNat

/-- Left shift with zeros; carry is the last bit shifted out, 0 for count 0 (R102). -/
def aluShl (a b : Word) : AluResult :=
  { result := a <<< shiftCount b
    carry := if shiftCount b = 0 then false else a.getLsbD (64 - shiftCount b)
    overflow := false }

/-- Right shift with zeros; carry is the last bit shifted out, 0 for count 0 (R103). -/
def aluShr (a b : Word) : AluResult :=
  { result := a >>> shiftCount b
    carry := if shiftCount b = 0 then false else a.getLsbD (shiftCount b - 1)
    overflow := false }

/-- Derive the flags from what the ALU answered (R31). -/
def State.setAluFlags (s : State) (out : AluResult) : State :=
  s.setFlags out.result out.carry out.overflow

/-- Write a result to `rd`, then derive the flags (R31, R33). -/
def State.writeResult (s : State) (rd : Reg) (out : AluResult) : State :=
  (s.setReg rd out.result).setAluFlags out

/-- Write the result of a logical operation to `rd`, then derive the flags (R32). -/
def State.writeLogic (s : State) (rd : Reg) (r : Word) : State :=
  (s.setReg rd r).setFlagsLogic r

/-- A two-operand arithmetic or shift instruction: `op1` is `x[rd]`, `op2` the role 2 operand (R86, R97). -/
def State.aluOp (s : State) (f : Word → Word → AluResult) (rd : Reg) (src : Operand) :
    Host.Outcome State Fault Refusal :=
  s.withOperand src fun op2 => .done (s.writeResult rd (f (s.reg rd) op2))

/-- A two-operand division instruction: a zero divisor raises DivisionByZero and writes nothing (R87 f, R91, R92). -/
def State.divisionOp (s : State) (f : Word → Word → AluResult) (rd : Reg) (src : Operand) :
    Host.Outcome State Fault Refusal :=
  s.withOperand src fun op2 =>
    if op2 = 0 then .raised (.divisionByZero s.instrAddr) s
    else .done (s.writeResult rd (f (s.reg rd) op2))

/-- A two-operand logical instruction (R97). -/
def State.logicOp (s : State) (f : Word → Word → Word) (rd : Reg) (src : Operand) :
    Host.Outcome State Fault Refusal :=
  s.withOperand src fun op2 => .done (s.writeLogic rd (f (s.reg rd) op2))

end Sys2Proof.Machine
end

