-- ==== Sys2Proof/Machine/Arithmetic.lean ====
section
/-! DEFINITION. Arithmetic: ADD, SUB, MUL, DIV, MOD, INC, DEC, CMP, SWAP (R88 to R96). -/

namespace Sys2Proof.Machine

/-- ADD (R88). -/
def execAdd (rd : Reg) (src : Operand) (s : State) : Host.Outcome State Fault Refusal :=
  s.aluOp aluAdd rd src

/-- SUB (R89). -/
def execSub (rd : Reg) (src : Operand) (s : State) : Host.Outcome State Fault Refusal :=
  s.aluOp aluSub rd src

/-- MUL (R90). -/
def execMul (rd : Reg) (src : Operand) (s : State) : Host.Outcome State Fault Refusal :=
  s.aluOp aluMul rd src

/-- DIV (R91). -/
def execDiv (rd : Reg) (src : Operand) (s : State) : Host.Outcome State Fault Refusal :=
  s.divisionOp aluDiv rd src

/-- MOD (R92). -/
def execMod (rd : Reg) (src : Operand) (s : State) : Host.Outcome State Fault Refusal :=
  s.divisionOp aluMod rd src

/-- INC (R93): flags as ADD with 1. -/
def execInc (rd : Reg) (s : State) : Host.Outcome State Fault Refusal :=
  .next (s.writeResult rd (aluAdd (s.reg rd) 1))

/-- DEC (R94): flags as SUB with 1. -/
def execDec (rd : Reg) (s : State) : Host.Outcome State Fault Refusal :=
  .next (s.writeResult rd (aluSub (s.reg rd) 1))

/-- CMP (R95): the flags of SUB, no register written. -/
def execCmp (ra : Reg) (src : Operand) (s : State) : Host.Outcome State Fault Refusal :=
  s.withOperand src fun op2 =>
    .done (s.setAluFlags (aluSub (s.reg ra) op2))

/-- Exchange two registers, both read before either is written (R96). -/
def State.swapRegs (s : State) (ra rb : Reg) : State :=
  (s.setReg ra (s.reg rb)).setReg rb (s.reg ra)

/-- SWAP (R96): flags from the new `x[ra]`. -/
def execSwap (ra rb : Reg) (s : State) : Host.Outcome State Fault Refusal :=
  .next ((s.swapRegs ra rb).setFlags ((s.swapRegs ra rb).reg ra) false false)

end Sys2Proof.Machine
end

