-- ==== Sys2Proof/Machine/Control.lean ====
section
/-! DEFINITION. Control transfer: JMP, the eight conditional branches, LOOP, CALL, RET, NOP (R104 to R120). -/

namespace Sys2Proof.Machine

/-- A branch: the target is resolved first, taken or not (R104, R105); then `pc` is written iff the condition holds. -/
def State.branchIf (s : State) (tgt : Operand) (taken : Bool) : Host.Outcome State Fault Refusal :=
  s.withOperand tgt fun t => .done (if taken then { s with pc := t } else s)

/-- JMP (R108). -/
def execJmp (tgt : Operand) (s : State) : Host.Outcome State Fault Refusal :=
  s.branchIf tgt true

/-- JZ, JEQ: Z = 1 (R106, R109). -/
def execJz (tgt : Operand) (s : State) : Host.Outcome State Fault Refusal :=
  s.branchIf tgt s.flags.z

/-- JNZ, JNE: Z = 0 (R106, R110). -/
def execJnz (tgt : Operand) (s : State) : Host.Outcome State Fault Refusal :=
  s.branchIf tgt (!s.flags.z)

/-- JC: C = 1 (R106, R111). -/
def execJc (tgt : Operand) (s : State) : Host.Outcome State Fault Refusal :=
  s.branchIf tgt s.flags.c

/-- JNC: C = 0 (R106, R112). -/
def execJnc (tgt : Operand) (s : State) : Host.Outcome State Fault Refusal :=
  s.branchIf tgt (!s.flags.c)

/-- JL: N ≠ V (R106, R113). -/
def execJl (tgt : Operand) (s : State) : Host.Outcome State Fault Refusal :=
  s.branchIf tgt (s.flags.n != s.flags.v)

/-- JLE: Z = 1 or N ≠ V (R106, R114). -/
def execJle (tgt : Operand) (s : State) : Host.Outcome State Fault Refusal :=
  s.branchIf tgt (s.flags.z || s.flags.n != s.flags.v)

/-- JG: Z = 0 and N = V (R106, R115). -/
def execJg (tgt : Operand) (s : State) : Host.Outcome State Fault Refusal :=
  s.branchIf tgt (!s.flags.z && s.flags.n == s.flags.v)

/-- JGE: N = V (R106, R116). -/
def execJge (tgt : Operand) (s : State) : Host.Outcome State Fault Refusal :=
  s.branchIf tgt (s.flags.n == s.flags.v)

/-- LOOP (R117): the target first, then the counter, then the branch. No flag. -/
def execLoop (rc : Reg) (tgt : Operand) (s : State) : Host.Outcome State Fault Refusal :=
  s.withOperand tgt fun t =>
    .done { s.setReg rc (s.reg rc - 1) with pc := if s.reg rc - 1 = 0 then s.pc else t }

/-- CALL (R118): the target first, then the push of the post-fetch `pc`. -/
def execCall (tgt : Operand) (s : State) : Host.Outcome State Fault Refusal :=
  s.withOperand tgt fun t => (s.push s.pc).bind fun s1 => .done { s1 with pc := t }

/-- RET (R119). -/
def execRet (s : State) : Host.Outcome State Fault Refusal :=
  (s.pop.bind fun p => .done { p.2 with pc := p.1 }).finish

/-- NOP (R120): only the fetch has moved `pc`. -/
def execNop (s : State) : Host.Outcome State Fault Refusal :=
  .next s

end Sys2Proof.Machine
end

