-- ==== Sys2Proof/Machine/DataMovement.lean ====
section
/-! DEFINITION. Data movement: MOV, LOAD, STORE, PUSH, POP (R81 to R85). None writes a flag. -/

namespace Sys2Proof.Machine

/-- MOV (R81): the source to `x[rd]`, or back through the operand under MOV_WRITEBACK = SYMMETRIC. -/
def execMov (rd : Reg) (src : Operand) (s : State) : Host.Outcome State Fault Refusal :=
  s.withOperand src fun v =>
    match s.config.movWriteBack with
    | .reg1 => .done (s.setReg rd v)
    | .symmetric => s.writeOperand src rd rd v

/-- LOAD (R82): the operand is the address. -/
def execLoad (rd : Reg) (addr : Operand) (s : State) : Host.Outcome State Fault Refusal :=
  s.withOperand addr fun a => (s.memRead a 8).bind fun v => .done (s.setReg rd v)

/-- STORE (R83): the operand is the address. -/
def execStore (addr : Operand) (rs : Reg) (s : State) : Host.Outcome State Fault Refusal :=
  s.withOperand addr fun a => s.memWrite a 8 (s.reg rs)

/-- PUSH (R84). -/
def execPush (src : Operand) (s : State) : Host.Outcome State Fault Refusal :=
  s.withOperand src fun v => s.push v

/-- POP (R85). -/
def execPop (rd : Reg) (s : State) : Host.Outcome State Fault Refusal :=
  (s.pop.bind fun p => .done (p.2.setReg rd p.1)).finish

end Sys2Proof.Machine
end

