-- ==== Sys2Proof/Machine/Logical.lean ====
section
/-! DEFINITION. Logic and shifts: AND, OR, XOR, NOT, SHL, SHR (R98 to R103). -/

namespace Sys2Proof.Machine

/-- AND (R98). -/
def execAnd (rd : Reg) (src : Operand) (s : State) : Host.Outcome State Fault Refusal :=
  s.logicOp (fun a b => a &&& b) rd src

/-- OR (R99). -/
def execOr (rd : Reg) (src : Operand) (s : State) : Host.Outcome State Fault Refusal :=
  s.logicOp (fun a b => a ||| b) rd src

/-- XOR (R100). -/
def execXor (rd : Reg) (src : Operand) (s : State) : Host.Outcome State Fault Refusal :=
  s.logicOp (fun a b => a ^^^ b) rd src

/-- NOT (R101). -/
def execNot (rd : Reg) (s : State) : Host.Outcome State Fault Refusal :=
  .next (s.writeLogic rd (~~~ s.reg rd))

/-- SHL (R102). -/
def execShl (rd : Reg) (count : Operand) (s : State) : Host.Outcome State Fault Refusal :=
  s.aluOp aluShl rd count

/-- SHR (R103). -/
def execShr (rd : Reg) (count : Operand) (s : State) : Host.Outcome State Fault Refusal :=
  s.aluOp aluShr rd count

end Sys2Proof.Machine
end

