-- ==== Sys2Proof/Machine/Ports.lean ====
section
/-! DEFINITION. The ports and the diagnostic channel (R122 to R125). -/

namespace Sys2Proof.Machine

/-- Record an event at the end of the trace (R125). -/
def State.record (s : State) (e : Event) : State :=
  { s with trace := s.trace ++ [e] }

/-- `DebugOut(v)` (R125). -/
def State.debugOut (s : State) (v : Word) : State := s.record (.print v)

/-- `IoWrite(p, v)`: ports 0 and 1 record the write, every other port ignores it (R124). -/
def State.ioWrite (s : State) (p v : Word) : State :=
  if p = 0 then s.record (.portWrite 0 v)
  else if p = 1 then s.record (.portWrite 1 v)
  else s

/-- A read of port 0 into `rd`: the next value the host has supplied; while there is none, the step holds (R123, D40). -/
def State.readPort0 (s : State) (rd : Reg) : State :=
  match s.port0Input with
  | [] => { s with portWait := some rd }
  | v :: rest =>
    ({ s with port0Input := rest, portWait := none }.record (.portRead 0 v)).setReg rd v

/-- The value of the next port 1 read: a free 32-bit draw, zero-extended (R123; log 5). -/
def State.port1Value (s : State) : Word := (Config.port1Time s.port1Draws).setWidth 64

/-- A read of port 1 into `rd` (R123). -/
def State.readPort1 (s : State) (rd : Reg) : State :=
  ({ s with port1Draws := s.port1Draws + 1 }.record (.portRead 1 s.port1Value)).setReg rd s.port1Value

/-- `x[rd] <- IoRead(p)`; every port but 0 and 1 reads 0 and records nothing (R123, R128). -/
def State.ioReadInto (s : State) (p : Word) (rd : Reg) : State :=
  if p = 0 then s.readPort0 rd
  else if p = 1 then s.readPort1 rd
  else s.setReg rd 0

end Sys2Proof.Machine
end

