-- ==== Sys2Proof/Machine/System.lean ====
section
/-! DEFINITION. System and I/O: HLT, PRINT, IN, OUT (R126 to R129). None writes a flag. -/

namespace Sys2Proof.Machine

/-- HLT (R126). -/
def execHlt (s : State) : Host.Outcome State Fault Refusal :=
  .next { s with running := false }

/-- PRINT (R127). -/
def execPrint (src : Operand) (s : State) : Host.Outcome State Fault Refusal :=
  s.withOperand src fun v => .done (s.debugOut v)

/-- IN (R128): a read of port 0 with no input supplied leaves the step held (D40). -/
def execIn (rd : Reg) (port : Operand) (s : State) : Host.Outcome State Fault Refusal :=
  s.withOperand port fun p => .done (s.ioReadInto p rd)

/-- OUT (R129). -/
def execOut (rs : Reg) (port : Operand) (s : State) : Host.Outcome State Fault Refusal :=
  s.withOperand port fun p => .done (s.ioWrite p (s.reg rs))

end Sys2Proof.Machine
end

