-- ==== Sys2Proof/Machine/Dispatch.lean ====
section
/-! DEFINITION. Executing a decoded instruction in the state after its fetch (R76): one arm for each row of the opcode table. -/

namespace Sys2Proof.Machine

def exec (i : Instr) (s : State) : Host.Outcome State Fault Refusal :=
  match i with
  | .nop => Sys2Proof.Machine.execNop s
  | .mov rd src => Sys2Proof.Machine.execMov rd src s
  | .load rd addr => Sys2Proof.Machine.execLoad rd addr s
  | .store addr rs => Sys2Proof.Machine.execStore addr rs s
  | .push src => Sys2Proof.Machine.execPush src s
  | .pop rd => Sys2Proof.Machine.execPop rd s
  | .add rd src => Sys2Proof.Machine.execAdd rd src s
  | .sub rd src => Sys2Proof.Machine.execSub rd src s
  | .mul rd src => Sys2Proof.Machine.execMul rd src s
  | .div rd src => Sys2Proof.Machine.execDiv rd src s
  | .mod rd src => Sys2Proof.Machine.execMod rd src s
  | .inc rd => Sys2Proof.Machine.execInc rd s
  | .dec rd => Sys2Proof.Machine.execDec rd s
  | .cmp ra src => Sys2Proof.Machine.execCmp ra src s
  | .swap ra rb => Sys2Proof.Machine.execSwap ra rb s
  | .and rd src => Sys2Proof.Machine.execAnd rd src s
  | .or rd src => Sys2Proof.Machine.execOr rd src s
  | .xor rd src => Sys2Proof.Machine.execXor rd src s
  | .not rd => Sys2Proof.Machine.execNot rd s
  | .shl rd count => Sys2Proof.Machine.execShl rd count s
  | .shr rd count => Sys2Proof.Machine.execShr rd count s
  | .jmp tgt => Sys2Proof.Machine.execJmp tgt s
  | .jz tgt => Sys2Proof.Machine.execJz tgt s
  | .jnz tgt => Sys2Proof.Machine.execJnz tgt s
  | .jc tgt => Sys2Proof.Machine.execJc tgt s
  | .jnc tgt => Sys2Proof.Machine.execJnc tgt s
  | .jl tgt => Sys2Proof.Machine.execJl tgt s
  | .jle tgt => Sys2Proof.Machine.execJle tgt s
  | .jg tgt => Sys2Proof.Machine.execJg tgt s
  | .jge tgt => Sys2Proof.Machine.execJge tgt s
  | .loop rc tgt => Sys2Proof.Machine.execLoop rc tgt s
  | .call tgt => Sys2Proof.Machine.execCall tgt s
  | .ret => Sys2Proof.Machine.execRet s
  | .hlt => Sys2Proof.Machine.execHlt s
  | .print src => Sys2Proof.Machine.execPrint src s
  | .inPort rd port => Sys2Proof.Machine.execIn rd port s
  | .outPort rs port => Sys2Proof.Machine.execOut rs port s

end Sys2Proof.Machine
end

