-- ==== Sys2Proof/Machine/Step.lean ====
section
/-! DEFINITION. One step of the fetch-execute controller (R76). -/

namespace Sys2Proof.Machine

/-- `Step()` (R76). A core that is not running does nothing (R25, R155). A step that holds on port 0 goes on (D40;
log 3). Otherwise: fetch, advance `pc`, decode, execute; the state after the fetch is the one an instruction acts on. -/
def step (s : State) : Host.Outcome State Fault Refusal :=
  match s.phase with
  | .halted => .next s
  | .holding rd => .next (s.readPort0 rd)
  | .fetchFailed e => .next (s.raise e)
  | .illegal s1 => .next (s1.raise (.illegalOpcode s.pc))
  | .execute i s1 => exec i s1

/-- `s` with the instruction whose bits are `w` where the next step fetches, and all that the next step needs to fetch and
run it: the core runs and no step is held. It stands for the host's load_program and run (R153, R154; log 8). -/
def State.withFetchWord (s : State) (nbits w : Nat) : State :=
  s.placeAtPc (tableWord nbits w)

end Sys2Proof.Machine
end

