-- ==== Sys2Proof/Machine/HostControl.lean ====
section
/-! DEFINITION. The host control interface: construction, reset and every host command (R147 to R163), and the bounded run
of R154. -/

namespace Sys2Proof.Machine

/-! ## Construction and reset -/

/-- Construction of a machine with the parameters `c`; a configuration outside the bounds of R8 is refused (R147, log 13). -/
def construct (c : Config) : Host.Outcome State Fault Refusal :=
  if c.wf then .next (State.construct c) else .refused .configurationRefused

/-- `new_vm(memory_size)`: construction with the default parameters (R147). -/
def newVm (size : Nat) : Host.Outcome State Fault Refusal := construct (Config.defaults size)

/-- The CPU reset (R148). A held step does not outlive it (log 14). -/
def State.cpuReset (s : State) : State :=
  { s with
    regs := Vector.replicate 16 0
    flags := { z := false, c := false, n := false, v := false, i := false }
    pc := 0
    sp := BitVec.ofNat 64 (s.config.memorySize - 16)
    running := false
    err := ErrReg.clear
    portWait := none }

/-- `clear()`: every byte 0, no check, the segment table untouched (R55). -/
def State.clearMemory (s : State) : State := { s with mem := [] }

/-- The host command `reset` (R149). -/
def State.vmReset (s : State) : State := s.clearMemory.cpuReset

/-! ## Loading -/

/-- Write words at `base`, `base + 8`, … with checked 8-byte writes; an error leaves the earlier words written (R153). -/
def State.loadWords (s : State) (base : Nat) : List Word → Attempt State
  | [] => .done s
  | w :: ws => (s.memWrite (BitVec.ofNat 64 base) 8 w).bind fun t => t.loadWords (base + 8) ws

/-- What a host command answers (R152). -/
inductive Reply where
  | nothing
  | ok
  | loadTooLarge
  | failed (e : Err)
  | value (v : Word)
  | bit (b : Bool)
  | bytes (bs : List Byte)
  deriving DecidableEq, Repr

/-- `load_program(words, base)` (R153): an error of a write goes to the host and sets neither `ERR` nor `running`. -/
def State.loadProgram (s : State) (words : List Word) (base : Word) : State × Reply :=
  if s.config.memorySize < base.toNat + 8 * words.length then (s, .loadTooLarge)
  else
    match s.loadWords base.toNat words with
    | .done t => ({ t with pc := base }, .ok)
    | .raised e left => (left, .failed e)

/-! ## Accessors -/

/-- `get_register(i)`: 0 outside 0..15 (R157). -/
def State.getRegister (s : State) (i : Nat) : Word :=
  if h : i < 16 then s.reg ⟨i, h⟩ else 0

/-- `set_register(i, v)`: writes `v mod 2^64`, nothing outside 0..15 (R157). -/
def State.setRegister (s : State) (i v : Nat) : State :=
  if h : i < 16 then s.setReg ⟨i, h⟩ (BitVec.ofNat 64 v) else s

/-- `get_flag(f)`: the flag at bit `f` of the flag word, 0 above bit 4 (R159). -/
def State.getFlag (s : State) (f : Nat) : Bool :=
  match f with
  | 0 => s.flags.z
  | 1 => s.flags.c
  | 2 => s.flags.n
  | 3 => s.flags.v
  | 4 => s.flags.i
  | _ => false

/-- `set_flag(f, b)`: writes `b mod 2`, nothing above bit 4 (R159). -/
def State.setFlag (s : State) (f b : Nat) : State :=
  match f with
  | 0 => { s with flags := { s.flags with z := b % 2 == 1 } }
  | 1 => { s with flags := { s.flags with c := b % 2 == 1 } }
  | 2 => { s with flags := { s.flags with n := b % 2 == 1 } }
  | 3 => { s with flags := { s.flags with v := b % 2 == 1 } }
  | 4 => { s with flags := { s.flags with i := b % 2 == 1 } }
  | _ => s

/-- `dump(start, length)`: the bytes of `[start, start + length)` that lie in memory, no check (R56). -/
def State.dump (s : State) (start length : Nat) : List Byte :=
  s.mem.readBytes start (min (start + length) s.config.memorySize - start)

/-- `add_segment`: one descriptor at the end of the table (R40, R57). -/
def State.addSegment (s : State) (g : Segment) : State :=
  { s with segments := s.segments ++ [g] }

/-- `stop` and `halt` (R156, C16). -/
def State.stop (s : State) : State := { s with running := false }

/-! ## Commands -/

/-- The host's commands on a machine (R152), with those of its CPU and memory surfaces. -/
inductive Command where
  | loadProgram (words : List Word) (base : Word)
  | run
  | step
  | stop
  | reset
  | getRegister (i : Nat)
  | setRegister (i v : Nat)
  | getPc
  | setPc (v : Nat)
  | getSp
  | setSp (v : Nat)
  | getFlag (f : Nat)
  | setFlag (f b : Nat)
  | dump (start length : Nat)
  | clear
  | addSegment (name : String) (base size : Word) (mask : BitVec 3)
  | enableDebug (on : Bool)
  | enableStepByStep (on : Bool)
  | handleInterrupt (n : Nat)
  | supplyPort0 (v : Word)
  deriving DecidableEq, Repr

/-- The effect of a command given between two steps, and its answer (R152 to R160). `run` is its entry: the steps follow
(R154). `step` is one step (R155). -/
def State.perform (s : State) (c : Command) : Host.Outcome (State × Reply) Fault Refusal :=
  match c with
  | .loadProgram words base => .next (s.loadProgram words base)
  | .run => .next (s.resume, .nothing)
  | .step =>
    match Sys2Proof.Machine.step s with
    | .next t => .next (t, .nothing)
    | .fault r => .fault r
    | .refused r => .refused r
  | .stop => .next (s.stop, .nothing)
  | .reset => .next (s.vmReset, .nothing)
  | .getRegister i => .next (s, .value (s.getRegister i))
  | .setRegister i v => .next (s.setRegister i v, .nothing)
  | .getPc => .next (s, .value s.pc)
  | .setPc v => .next ({ s with pc := BitVec.ofNat 64 v }, .nothing)
  | .getSp => .next (s, .value s.sp)
  | .setSp v => .next ({ s with sp := BitVec.ofNat 64 v }, .nothing)
  | .getFlag f => .next (s, .bit (s.getFlag f))
  | .setFlag f b => .next (s.setFlag f b, .nothing)
  | .dump start length => .next (s, .bytes (s.dump start length))
  | .clear => .next (s.clearMemory, .nothing)
  | .addSegment name base size mask =>
    .next (s.addSegment { name := name, base := base, size := size, perms := Permissions.ofMask mask }, .nothing)
  | .enableDebug _ => .next (s, .nothing)
  | .enableStepByStep _ => .next (s, .nothing)
  | .handleInterrupt n =>
    if s.config.interruptEntry then .next (s.interruptEntry n, .nothing)
    else .refused .interruptEntryAbsent
  | .supplyPort0 v => .next ({ s with port0Input := s.port0Input ++ [v] }, .nothing)

/-- Whether a command may be given while a step holds on port 0: only the supply of its input, and going on with that
step (R161, R163; log 4). -/
def Command.allowedDuringHold : Command → Bool
  | .supplyPort0 _ => true
  | .step => true
  | .loadProgram _ _ => false
  | .run => false
  | .stop => false
  | .reset => false
  | .getRegister _ => false
  | .setRegister _ _ => false
  | .getPc => false
  | .setPc _ => false
  | .getSp => false
  | .setSp _ => false
  | .getFlag _ => false
  | .setFlag _ _ => false
  | .dump _ _ => false
  | .clear => false
  | .addSegment _ _ _ _ => false
  | .enableDebug _ => false
  | .enableStepByStep _ => false
  | .handleInterrupt _ => false

/-- A host command: between two steps it has its effect; while a step holds, only the supply of input has a move. -/
def State.command (s : State) (c : Command) : Host.Outcome (State × Reply) Fault Refusal :=
  if s.portWait.isSome && !c.allowedDuringHold then .refused .hostCommandDuringStep
  else s.perform c

/-! ## Runs -/

/-- The loop of R154, at most `fuel` steps; `outOfFuel` when the core still runs then. -/
def State.runSteps (s : State) : Nat → Host.Outcome State Fault Refusal
  | 0 => if s.running then .fault .outOfFuel else .next s
  | fuel + 1 =>
    if s.running then
      match step s with
      | .next t => t.runSteps fuel
      | .fault r => .fault r
      | .refused r => .refused r
    else .next s

/-- `run()` with no host command in it, at most `fuel` steps (R154, R161). -/
def State.run (s : State) (fuel : Nat) : Host.Outcome State Fault Refusal :=
  s.resume.runSteps fuel

/-- How a run has ended (R162). -/
inductive Ending where
  | haltedClean
  | haltedOnError (e : ErrReg)
  deriving DecidableEq, Repr

/-- The ending of a run that has reached `running = 0`; none while the core runs (R162). -/
def State.ending (s : State) : Option Ending :=
  if s.running then none
  else if s.err.kind = .none then some .haltedClean
  else some (.haltedOnError s.err)

end Sys2Proof.Machine
end

