-- ==== Sys2Proof/Safety.lean ====
section
/-! DEFINITION. The terms statements about the machine are written in: which accesses succeed and what they read (R44, R46,
R47), what an operand denotes (R68), and the invariant every step keeps. -/

namespace Sys2Proof

/-- The operand that mode, register and immediate fields name (R67), written out for the statement below. -/
def operandByMode (mode : Nat) (r : Nat) (imm : Nat) : Operand :=
  match mode with
  | 0 => .register (Fin.ofNat 16 r)
  | 1 => .immediate (BitVec.ofNat 32 imm)
  | 2 => .memory (BitVec.ofNat 32 imm)
  | 3 => .registerIndirect (Fin.ofNat 16 r)
  | m => .undefinedMode (BitVec.ofNat 4 m)

/-- The opcode table under the default map, row by row: opcode, and the instruction its fields `reg1` and `reg2` and its
role 1 and role 2 operands make (R70, R72). -/
def opcodeRows : List (Nat × (Reg → Reg → Operand → Operand → Instr)) :=
  [(0x00, fun _ _ _ _ => .nop), (0x01, fun a _ _ q => .mov a q), (0x02, fun a _ _ q => .load a q),
   (0x03, fun _ b p _ => .store p b), (0x04, fun _ _ p _ => .push p), (0x05, fun a _ _ _ => .pop a),
   (0x10, fun a _ _ q => .add a q), (0x11, fun a _ _ q => .sub a q), (0x12, fun a _ _ q => .mul a q),
   (0x13, fun a _ _ q => .div a q), (0x14, fun a _ _ q => .mod a q), (0x15, fun a _ _ _ => .inc a),
   (0x16, fun a _ _ _ => .dec a), (0x17, fun a _ _ q => .cmp a q), (0x18, fun a b _ _ => .swap a b),
   (0x20, fun a _ _ q => .and a q), (0x21, fun a _ _ q => .or a q), (0x22, fun a _ _ q => .xor a q),
   (0x23, fun a _ _ _ => .not a), (0x24, fun a _ _ q => .shl a q), (0x25, fun a _ _ q => .shr a q),
   (0x30, fun _ _ _ q => .jmp q), (0x31, fun _ _ _ q => .jz q), (0x32, fun _ _ _ q => .jnz q),
   (0x33, fun _ _ _ q => .jc q), (0x34, fun _ _ _ q => .jnc q), (0x35, fun _ _ _ q => .jl q),
   (0x36, fun _ _ _ q => .jle q), (0x37, fun _ _ _ q => .jg q), (0x38, fun _ _ _ q => .jge q),
   (0x39, fun a _ _ q => .loop a q), (0x3A, fun _ _ _ q => .call q), (0x3B, fun _ _ _ _ => .ret),
   (0x40, fun _ _ _ _ => .hlt), (0x41, fun _ _ p _ => .print p), (0x42, fun a _ _ q => .inPort a q),
   (0x43, fun a _ _ q => .outPort a q)]

end Sys2Proof

namespace Sys2Proof.Machine

/-- An access of kind `k` to the `n` bytes at `addr` succeeds: inside memory, and each byte is permitted (R46, R47, R48). -/
def State.Accessible (s : State) (k : Access) (addr : Word) (n : Nat) : Prop :=
  addr.toNat + n ≤ s.config.memorySize ∧ ∀ j, j < n → s.permitted k (addr.toNat + j) = true

/-- An access of kind `k` to the `n` bytes at `addr` lies inside memory and its lowest denied byte is the `j`-th (R47, R48). -/
def State.DeniedAt (s : State) (k : Access) (addr : Word) (n j : Nat) : Prop :=
  addr.toNat + n ≤ s.config.memorySize ∧ j < n ∧ s.permitted k (addr.toNat + j) = false ∧
    ∀ i, i < j → s.permitted k (addr.toNat + i) = true

/-- An access of kind `k` to the `n` bytes at `addr` raises `e`: bounds first, then the lowest denied byte (R46, R136). -/
def State.AccessFails (s : State) (k : Access) (addr : Word) (n : Nat) (e : Err) : Prop :=
  (s.config.memorySize < addr.toNat + n ∧ e = .badAddress addr) ∨
    ∃ j, s.DeniedAt k addr n j ∧ e = .accessViolation k (addr + BitVec.ofNat 64 j)

/-- The number in the `n` bytes at `a`, little-endian: the sum over `i` of `mem[a + i] * 2^(8 * i)` (R47). -/
def State.numberAt (s : State) (a n : Nat) : Nat :=
  ((List.range n).map fun i => (s.mem.read (a + i)).toNat * 2 ^ (8 * i)).sum

/-- The 64-bit word at an address, `mem64[a]` (R38). -/
def State.word64 (s : State) (a : Word) : Word := BitVec.ofNat 64 (s.numberAt a.toNat 8)

/-- The address an operand reads memory at, if its mode reads memory (R67, R68). -/
def State.operandAddr (s : State) : Operand → Option Word
  | .register _ => none
  | .immediate _ => none
  | .memory a => some (a.setWidth 64)
  | .registerIndirect r => some s.regs[r.val]
  | .undefinedMode _ => none

/-- An operand resolves without an error: its mode is one of the four, and what it reads is readable (R68). -/
def State.Resolves (s : State) : Operand → Prop
  | .register _ => True
  | .immediate _ => True
  | .memory a => s.Accessible .read (a.setWidth 64) 8
  | .registerIndirect r => s.Accessible .read s.regs[r.val] 8
  | .undefinedMode _ => False

/-- The value an operand that resolves denotes (R68). -/
def State.operandValue (s : State) : Operand → Word
  | .register r => s.regs[r.val]
  | .immediate v => v.setWidth 64
  | .memory a => s.word64 (a.setWidth 64)
  | .registerIndirect r => s.word64 s.regs[r.val]
  | .undefinedMode _ => 0

/-- Resolving an operand raises `e` (R68): its read fails, or its mode is undefined and `e` names the instruction. -/
def State.OperandFails (s : State) (e : Err) : Operand → Prop
  | .register _ => False
  | .immediate _ => False
  | .memory a => s.AccessFails .read (a.setWidth 64) 8 e
  | .registerIndirect r => s.AccessFails .read s.regs[r.val] 8 e
  | .undefinedMode _ => e = .illegalOpcode (s.pc - 8)

/-- Memory `m'` is memory `m` with the low `n` bytes of `v` at `a`, little-endian, and every other byte as before (R48). -/
def Stored (m m' : Memory) (a n : Nat) (v : Word) : Prop :=
  ∀ x, m'.read x = if a ≤ x ∧ x < a + n then v.extractLsb' (8 * (x - a)) 8 else m.read x

/-- The next step fetches an instruction and the fetch succeeds: the core runs, no step is held, and the 8 bytes at `pc` are
readable (and executable, under FETCH_CHECKS_EXECUTE) (R49, R76). -/
def State.Fetches (s : State) : Prop :=
  s.running = true ∧ s.portWait = none ∧ s.Accessible .read s.pc 8 ∧
    (s.config.fetchChecksExecute = true → s.Accessible .execute s.pc 8)

/-- `s` with `r` written to `x[rd]`, Z and N taken from `r`, C and V as given, and nothing else changed (R31). -/
def State.afterResult (s : State) (rd : Reg) (r : Word) (c v : Bool) : State :=
  { s with
    regs := s.regs.set rd.val r
    flags := { z := decide (r.toNat = 0), c := c, n := decide (2 ^ 63 ≤ r.toNat), v := v, i := s.flags.i } }

/-- `s` with the error `e` taken: `ERR` written, `running` cleared, and nothing else changed (R132). -/
def State.haltedBy (s : State) (e : Err) : State :=
  { s with
    running := false
    err :=
      match e with
      | .badAddress a => { kind := .badAddress, access := .read, addr := a }
      | .accessViolation k a => { kind := .accessViolation, access := k, addr := a }
      | .illegalOpcode ia => { kind := .illegalOpcode, access := .read, addr := ia }
      | .divisionByZero ia => { kind := .divisionByZero, access := .read, addr := ia } }

/-- The invariant every step and every host command keeps. -/
structure State.Inv (s : State) : Prop where
  /-- The parameters are ones R8 allows. -/
  configOk : s.config.wf = true
  /-- The byte list is in canonical form. -/
  memCanonical : s.mem.wf = true
  /-- No byte outside memory is held (R37). -/
  memInside : s.mem.within s.config.memorySize = true
  /-- While the core runs no error is recorded (R132, R154). -/
  runningClear : s.running = true → s.err = ErrReg.clear
  /-- Only a running core holds a step (R123). -/
  holdRuns : s.portWait.isSome = true → s.running = true
  /-- `ERR.access` is 0 but for AccessViolation (R26). -/
  errAccess : s.err.kind ≠ .accessViolation → s.err.access = .read
  /-- `ERR.addr` is 0 when no error is recorded (R26). -/
  errAddr : s.err.kind = .none → s.err.addr = 0
  /-- EXECUTE is denied only under FETCH_CHECKS_EXECUTE (R45). -/
  errExecute : s.config.fetchChecksExecute = false → s.err.access ≠ .execute

end Sys2Proof.Machine
end

