-- ==== Sys2Proof/Certificates/Slice0/Obligations.lean ====
section
/-! DEFINITION. The statements for the provers, from the numbered rules of the spec. In a statement about `exec`, `s` is the
state after the fetch, so `s.pc` is the instruction's address plus 8 (R21). A next state written `{ s with … }` says that
every other register, flag, byte of memory and piece of state is unchanged. -/

open Sys2Proof Sys2Proof.Machine

/-! ## Encoding and decoding -/

/-- R65, R70, R75: under any injective opcode map, decoding the word of a well-formed instruction gives it back. -/
def Obligations.DecodeOfEncodeIsIdentity : Prop :=
  ∀ (c : Config) (i : Instr), c.opcodeMapOk = true → i.wf c.strictDecode = true → decode c (encode c i) = .ok i

/-- R73, R75: what the decoder answers is well formed, and carries the opcode of the word. -/
def Obligations.DecodedInstructionIsWellFormed : Prop :=
  ∀ (c : Config) (w : Word) (i : Instr), c.opcodeMapOk = true → decode c w = .ok i →
    i.wf c.strictDecode = true ∧ c.opcodeOf i.mnemonic = w.extractLsb' 56 8

/-- R73 (a) to (c) and its last sentence: which words the decoder rejects, for every configuration; which opcode bytes are
unmapped by default; and which words are legal by default. -/
def Obligations.WordIsIllegalExactlyByRule : Prop :=
  (∀ (c : Config) (w : Word),
    (∃ e, decode c w = .error e) ↔
      (∀ p ∈ c.opcodeMap, p.2 ≠ w.extractLsb' 56 8) ∨
        (c.strictDecode = true ∧ (4 ≤ (w.extractLsb' 52 4).toNat ∨ w.extractLsb' 32 12 ≠ 0))) ∧
  (∀ op : BitVec 8,
    (∀ p ∈ defaultOpcodeMap, p.2 ≠ op) ↔
      (0x06 ≤ op.toNat ∧ op.toNat ≤ 0x0F) ∨ (0x19 ≤ op.toNat ∧ op.toNat ≤ 0x1F) ∨ (0x26 ≤ op.toNat ∧ op.toNat ≤ 0x2F) ∨
        (0x3C ≤ op.toNat ∧ op.toNat ≤ 0x3F) ∨ 0x44 ≤ op.toNat) ∧
  (∀ (size : Nat) (w : Word),
    (∃ i, decode (Config.defaults size) w = .ok i) ↔
      (∃ p ∈ defaultOpcodeMap, p.2 = w.extractLsb' 56 8) ∧ w.extractLsb' 54 2 = 0 ∧ w.extractLsb' 32 12 = 0)

/-- R64, R67, R70, R71, R72: under the default map every legal word of every row decodes to the row's instruction, with the
registers and the immediate at their bits, whatever its unused fields hold. -/
def Obligations.EveryOpcodeRowDecodes : Prop :=
  ∀ row ∈ opcodeRows, ∀ (size mode r1 r2 imm : Nat), mode < 4 → r1 < 16 → r2 < 16 → imm < 2 ^ 32 →
    decode (Config.defaults size)
        (BitVec.ofNat 64 (row.1 * 2 ^ 56 + mode * 2 ^ 52 + r1 * 2 ^ 48 + r2 * 2 ^ 44 + imm)) =
      .ok (row.2 (Fin.ofNat 16 r1) (Fin.ofNat 16 r2) (operandByMode mode r1 imm) (operandByMode mode r2 imm))

/-- Words written out in the spec's examples decode to the instructions they stand for (95_test_vectors.md V1, V6, V16, V26,
V65, V92, V97, V110). -/
def Obligations.SampleWordsDecode : Prop :=
  decodeTableWord 64 0x011000000000002A = some (.mov 0 (.immediate 42)) ∧
  decodeTableWord 64 0x0131200000000000 = some (.mov 1 (.registerIndirect 2)) ∧
  decodeTableWord 64 0x0304100000000000 = some (.store (.register 4) 1) ∧
  decodeTableWord 64 0x0502000000000000 = some (.pop 2) ∧
  decodeTableWord 64 0x241000000000003F = some (.shl 0 (.immediate 63)) ∧
  decodeTableWord 64 0x3911000000000010 = some (.loop 1 (.immediate 16)) ∧
  decodeTableWord 64 0x3A10000000000018 = some (.call (.immediate 24)) ∧
  decodeTableWord 64 0x4310000000000001 = some (.outPort 0 (.immediate 1))

/-- R66: where the bytes of an instruction word stored at `a` lie, and the rule's example. -/
def Obligations.InstructionWordLiesLittleEndian : Prop :=
  (∀ (m : Memory) (a : Nat) (w : Word), m.wf = true →
    (m.writeBytes a (bytesOfWord 8 w)).read (a + 0) = w.extractLsb' 0 8 ∧
    (m.writeBytes a (bytesOfWord 8 w)).read (a + 1) = w.extractLsb' 8 8 ∧
    (m.writeBytes a (bytesOfWord 8 w)).read (a + 2) = w.extractLsb' 16 8 ∧
    (m.writeBytes a (bytesOfWord 8 w)).read (a + 3) = w.extractLsb' 24 8 ∧
    (m.writeBytes a (bytesOfWord 8 w)).read (a + 4) = (cutFields w).rsvd.extractLsb' 0 8 ∧
    (m.writeBytes a (bytesOfWord 8 w)).read (a + 5) =
      BitVec.ofNat 4 (cutFields w).reg2.val ++ (cutFields w).rsvd.extractLsb' 8 4 ∧
    (m.writeBytes a (bytesOfWord 8 w)).read (a + 6) = (cutFields w).mode ++ BitVec.ofNat 4 (cutFields w).reg1.val ∧
    (m.writeBytes a (bytesOfWord 8 w)).read (a + 7) = (cutFields w).opcode) ∧
  (∀ size, encode (Config.defaults size) (.mov 0 (.immediate 42)) = 0x011000000000002A) ∧
  bytesOfWord 8 0x011000000000002A = [0x2A, 0x00, 0x00, 0x00, 0x00, 0x00, 0x10, 0x01]

/-! ## Memory -/

/-- R42, R43, R44: a byte is permitted exactly when the first segment in table order whose range holds it grants the kind. -/
def Obligations.PermissionIsOfFirstCoveringSegment : Prop :=
  ∀ (s : State) (k : Access) (a : Nat),
    s.permitted k a = true ↔
      ∃ pre g post, s.segments = pre ++ g :: post ∧
        (∀ h ∈ pre, ¬ (h.base.toNat ≤ a ∧ a < h.base.toNat + h.size.toNat)) ∧
        (g.base.toNat ≤ a ∧ a < g.base.toNat + g.size.toNat) ∧
        (match k with
          | .read => g.perms.read = true
          | .write => g.perms.write = true
          | .execute => g.perms.execute = true)

/-- R41, R54 (d): what the default segments permit in the machine of `State.reset`. Its memory size, 0x800000, is the
model's choice (log 1; the size of the spec's vectors, D46). -/
def Obligations.ResetSegmentsPermit : Prop :=
  ∀ a : Nat,
    (State.reset.permitted .read a = true ↔ a < 0x300000 ∨ (0x700000 ≤ a ∧ a < 0x800000)) ∧
    (State.reset.permitted .write a = true ↔ a < 0x300000 ∨ (0x700000 ≤ a ∧ a < 0x800000)) ∧
    (State.reset.permitted .execute a = true ↔ a < 0x100000)

/-- R47: the checked read. `AccessFails` is the bounds check first, then the lowest denied byte; a read changes nothing. -/
def Obligations.CheckedReadFollowsRule : Prop :=
  ∀ (s : State) (addr : Word) (n : Nat), n ≤ 8 →
    (s.Accessible .read addr n → s.memRead addr n = .done (BitVec.ofNat 64 (s.numberAt addr.toNat n))) ∧
    ∀ e, s.AccessFails .read addr n e → s.memRead addr n = .raised e s

/-- R48: the checked write, under both settings of PARTIAL_WRITE. -/
def Obligations.CheckedWriteFollowsRule : Prop :=
  ∀ (s : State) (addr : Word) (n : Nat) (v : Word), n ≤ 8 → s.mem.wf = true →
    (s.Accessible .write addr n →
      ∃ m, Stored s.mem m addr.toNat n v ∧ m.wf = true ∧ s.memWrite addr n v = .done { s with mem := m }) ∧
    (s.config.memorySize < addr.toNat + n → s.memWrite addr n v = .raised (.badAddress addr) s) ∧
    ∀ j, s.DeniedAt .write addr n j →
      (s.config.partialWrite = false →
        s.memWrite addr n v = .raised (.accessViolation .write (addr + BitVec.ofNat 64 j)) s) ∧
      (s.config.partialWrite = true →
        ∃ m, Stored s.mem m addr.toNat j v ∧ m.wf = true ∧
          s.memWrite addr n v = .raised (.accessViolation .write (addr + BitVec.ofNat 64 j)) { s with mem := m })

/-- R49: the fetch reads 8 bytes, and checks EXECUTE after READ when the parameter says so. -/
def Obligations.FetchReadFollowsRule : Prop :=
  ∀ (s : State) (addr : Word),
    (∀ e, s.AccessFails .read addr 8 e → s.memFetch addr = .raised e s) ∧
    (s.Accessible .read addr 8 →
      (s.config.fetchChecksExecute = false → s.memFetch addr = .done (s.word64 addr)) ∧
      (s.config.fetchChecksExecute = true →
        (s.Accessible .execute addr 8 → s.memFetch addr = .done (s.word64 addr)) ∧
        ∀ j, s.DeniedAt .execute addr 8 j →
          s.memFetch addr = .raised (.accessViolation .execute (addr + BitVec.ofNat 64 j)) s))

/-- R51: after an 8-byte write, a narrower read inside it returns the bits the rule names. -/
def Obligations.NarrowReadAfterWideWrite : Prop :=
  ∀ (s : State) (a v : Word) (k m : Nat), s.config.memorySizeOk = true → s.mem.wf = true → k + m ≤ 8 →
    s.Accessible .write a 8 → s.Accessible .read (a + BitVec.ofNat 64 k) m →
    ∃ t, s.memWrite a 8 v = .done t ∧
      t.memRead (a + BitVec.ofNat 64 k) m = .done ((v.extractLsb' (8 * k) (8 * m)).setWidth 64)

/-! ## Operands and flags -/

/-- R68: resolving an operand, in each of the four modes and in an undefined one. -/
def Obligations.OperandResolutionFollowsRule : Prop :=
  ∀ (s : State) (o : Operand),
    (s.Resolves o → s.readOperand o = .done (s.operandValue o)) ∧
    ∀ e, s.OperandFails e o → s.readOperand o = .raised e s

/-- R69: writing an operand back, `reg1` the first register field and `r` the register of the role. -/
def Obligations.OperandWriteBackFollowsRule : Prop :=
  ∀ (s : State) (r reg1 q : Reg) (imm : BitVec 32) (mode : BitVec 4) (v : Word),
    s.writeOperand (.register q) r reg1 v = .done { s with regs := s.regs.set r.val v } ∧
    s.writeOperand (.immediate imm) r reg1 v = .done { s with regs := s.regs.set reg1.val v } ∧
    s.writeOperand (.memory imm) r reg1 v = s.memWrite (BitVec.ofNat 64 imm.toNat) 8 v ∧
    s.writeOperand (.registerIndirect q) r reg1 v = s.memWrite s.regs[r.val] 8 v ∧
    s.writeOperand (.undefinedMode mode) r reg1 v = .raised (.illegalOpcode (s.pc - 8)) s

/-- R31, R32: the flag derivator; I is never written. -/
def Obligations.FlagDerivatorFollowsRule : Prop :=
  ∀ (s : State) (r : Word) (c v : Bool),
    (s.setFlags r c v =
      { s with flags := { z := decide (r.toNat = 0), n := decide (2 ^ 63 ≤ r.toNat), c := c, v := v, i := s.flags.i } }) ∧
    (s.config.logicPreservesCV = true →
      s.setFlagsLogic r =
        { s with flags := { s.flags with z := decide (r.toNat = 0), n := decide (2 ^ 63 ≤ r.toNat) } }) ∧
    (s.config.logicPreservesCV = false → s.setFlagsLogic r = s.setFlags r false false)

/-! ## Data movement -/

/-- R81: MOV under both settings of MOV_WRITEBACK. -/
def Obligations.MovCompletes : Prop :=
  ∀ (rd : Reg) (src : Operand) (s : State), s.Resolves src →
    (s.config.movWriteBack = .reg1 →
      exec (.mov rd src) s = .next { s with regs := s.regs.set rd.val (s.operandValue src) }) ∧
    (s.config.movWriteBack = .symmetric →
      (s.operandAddr src = none →
        exec (.mov rd src) s = .next { s with regs := s.regs.set rd.val (s.operandValue src) }) ∧
      (∀ a : BitVec 32, src = .memory a → s.mem.wf = true → s.Accessible .write (a.setWidth 64) 8 →
        ∃ m, Stored s.mem m a.toNat 8 (s.operandValue src) ∧ m.wf = true ∧
          exec (.mov rd src) s = .next { s with mem := m }) ∧
      (∀ q : Reg, src = .registerIndirect q → s.mem.wf = true → s.Accessible .write s.regs[rd.val] 8 →
        ∃ m, Stored s.mem m (s.regs[rd.val]).toNat 8 (s.operandValue src) ∧ m.wf = true ∧
          exec (.mov rd src) s = .next { s with mem := m }))

/-- R82: LOAD; the operand's value is the address. -/
def Obligations.LoadCompletes : Prop :=
  ∀ (rd : Reg) (addr : Operand) (s : State), s.Resolves addr → s.Accessible .read (s.operandValue addr) 8 →
    exec (.load rd addr) s = .next { s with regs := s.regs.set rd.val (s.word64 (s.operandValue addr)) }

/-- R83: STORE; the operand's value is the address, and only its 8 bytes change. -/
def Obligations.StoreCompletes : Prop :=
  ∀ (addr : Operand) (rs : Reg) (s : State), s.mem.wf = true → s.Resolves addr →
    s.Accessible .write (s.operandValue addr) 8 →
    ∃ m, Stored s.mem m (s.operandValue addr).toNat 8 s.regs[rs.val] ∧ m.wf = true ∧
      exec (.store addr rs) s = .next { s with mem := m }

/-- R79, R84: PUSH; only `sp` and the 8 bytes at the new `sp` change. -/
def Obligations.PushCompletes : Prop :=
  ∀ (src : Operand) (s : State), s.mem.wf = true → s.Resolves src → s.Accessible .write (s.sp - 8) 8 →
    ∃ m, Stored s.mem m (s.sp - 8).toNat 8 (s.operandValue src) ∧ m.wf = true ∧
      exec (.push src) s = .next { s with mem := m, sp := s.sp - 8 }

/-- R80, R85: POP; only the destination and `sp` change. -/
def Obligations.PopCompletes : Prop :=
  ∀ (rd : Reg) (s : State), s.Accessible .read s.sp 8 →
    exec (.pop rd) s = .next { s with regs := s.regs.set rd.val (s.word64 s.sp), sp := s.sp + 8 }

/-! ## Arithmetic -/

/-- R88: ADD. -/
def Obligations.AddCompletes : Prop :=
  ∀ (rd : Reg) (src : Operand) (s : State), s.Resolves src →
    exec (.add rd src) s =
      .next (s.afterResult rd (BitVec.ofNat 64 ((s.regs[rd.val]).toNat + (s.operandValue src).toNat))
        (decide (2 ^ 64 ≤ (s.regs[rd.val]).toNat + (s.operandValue src).toNat)) false)

/-- R89: SUB. -/
def Obligations.SubCompletes : Prop :=
  ∀ (rd : Reg) (src : Operand) (s : State), s.Resolves src →
    exec (.sub rd src) s =
      .next (s.afterResult rd (BitVec.ofNat 64 (2 ^ 64 + (s.regs[rd.val]).toNat - (s.operandValue src).toNat))
        (decide ((s.regs[rd.val]).toNat < (s.operandValue src).toNat)) false)

/-- R90: MUL; V says that the full product is at least 2^64. -/
def Obligations.MulCompletes : Prop :=
  ∀ (rd : Reg) (src : Operand) (s : State), s.Resolves src →
    exec (.mul rd src) s =
      .next (s.afterResult rd (BitVec.ofNat 64 ((s.regs[rd.val]).toNat * (s.operandValue src).toNat)) false
        (decide (2 ^ 64 ≤ (s.regs[rd.val]).toNat * (s.operandValue src).toNat)))

/-- R87 (d), R91, R92: DIV and MOD by a divisor that is not 0. The rounding, floor of the quotient with its remainder, is
PRESUMED (log 19): R87 (d), which R91 and R92 use, marks it as from general knowledge, not in source. -/
def Obligations.DivModComplete : Prop :=
  ∀ (rd : Reg) (src : Operand) (s : State), s.Resolves src → (s.operandValue src).toNat ≠ 0 →
    exec (.div rd src) s =
      .next (s.afterResult rd (BitVec.ofNat 64 ((s.regs[rd.val]).toNat / (s.operandValue src).toNat)) false false) ∧
    exec (.mod rd src) s =
      .next (s.afterResult rd (BitVec.ofNat 64 ((s.regs[rd.val]).toNat % (s.operandValue src).toNat)) false false)

/-- R87 (f), R91, R92: DIV and MOD by 0 take DivisionByZero and write nothing else. -/
def Obligations.DivisionByZeroIsTaken : Prop :=
  ∀ (rd : Reg) (src : Operand) (s : State), s.Resolves src → (s.operandValue src).toNat = 0 →
    exec (.div rd src) s = .next (s.haltedBy (.divisionByZero (s.pc - 8))) ∧
    exec (.mod rd src) s = .next (s.haltedBy (.divisionByZero (s.pc - 8)))

/-- R93, R94: INC and DEC. -/
def Obligations.IncDecComplete : Prop :=
  ∀ (rd : Reg) (s : State),
    exec (.inc rd) s =
      .next (s.afterResult rd (BitVec.ofNat 64 ((s.regs[rd.val]).toNat + 1))
        (decide ((s.regs[rd.val]).toNat = 2 ^ 64 - 1)) false) ∧
    exec (.dec rd) s =
      .next (s.afterResult rd (BitVec.ofNat 64 (2 ^ 64 + (s.regs[rd.val]).toNat - 1))
        (decide ((s.regs[rd.val]).toNat = 0)) false)

/-- R95: CMP writes the flags SUB writes, and nothing else. -/
def Obligations.CmpCompletesWithFlagsOfSub : Prop :=
  ∀ (ra : Reg) (src : Operand) (s : State), s.Resolves src →
    ∃ t u, exec (.cmp ra src) s = .next t ∧ exec (.sub ra src) s = .next u ∧ t = { s with flags := u.flags } ∧
      t.flags =
        { z := decide ((s.regs[ra.val]).toNat = (s.operandValue src).toNat)
          c := decide ((s.regs[ra.val]).toNat < (s.operandValue src).toNat)
          n := (BitVec.ofNat 64 (2 ^ 64 + (s.regs[ra.val]).toNat - (s.operandValue src).toNat)).getLsbD 63
          v := false
          i := s.flags.i }

/-- R96: SWAP; the two registers may be one. -/
def Obligations.SwapCompletes : Prop :=
  ∀ (ra rb : Reg) (s : State),
    ∃ t, exec (.swap ra rb) s = .next t ∧
      t.regs[ra.val] = s.regs[rb.val] ∧ t.regs[rb.val] = s.regs[ra.val] ∧
      (∀ q : Reg, q ≠ ra → q ≠ rb → t.regs[q.val] = s.regs[q.val]) ∧
      t = { s with
            regs := t.regs
            flags := { z := decide ((s.regs[rb.val]).toNat = 0), c := false,
                       n := decide (2 ^ 63 ≤ (s.regs[rb.val]).toNat), v := false, i := s.flags.i } }

/-! ## Logic and shifts -/

/-- R98 to R101: AND, OR, XOR, NOT, under both settings of LOGIC_PRESERVES_CV. -/
def Obligations.LogicCompletes : Prop :=
  ∀ (rd : Reg) (src : Operand) (s : State),
    (s.Resolves src →
      exec (.and rd src) s =
        .next (s.afterResult rd (BitVec.ofNat 64 ((s.regs[rd.val]).toNat &&& (s.operandValue src).toNat))
          (s.config.logicPreservesCV && s.flags.c) (s.config.logicPreservesCV && s.flags.v)) ∧
      exec (.or rd src) s =
        .next (s.afterResult rd (BitVec.ofNat 64 ((s.regs[rd.val]).toNat ||| (s.operandValue src).toNat))
          (s.config.logicPreservesCV && s.flags.c) (s.config.logicPreservesCV && s.flags.v)) ∧
      exec (.xor rd src) s =
        .next (s.afterResult rd (BitVec.ofNat 64 ((s.regs[rd.val]).toNat ^^^ (s.operandValue src).toNat))
          (s.config.logicPreservesCV && s.flags.c) (s.config.logicPreservesCV && s.flags.v))) ∧
    exec (.not rd) s =
      .next (s.afterResult rd (BitVec.ofNat 64 (2 ^ 64 - 1 - (s.regs[rd.val]).toNat))
        (s.config.logicPreservesCV && s.flags.c) (s.config.logicPreservesCV && s.flags.v))

/-- R102, R103: SHL and SHR by the low 6 bits of the operand. -/
def Obligations.ShiftsComplete : Prop :=
  ∀ (rd : Reg) (count : Operand) (s : State) (n : Nat), s.Resolves count → n = (s.operandValue count).toNat % 64 →
    exec (.shl rd count) s =
      .next (s.afterResult rd (BitVec.ofNat 64 ((s.regs[rd.val]).toNat * 2 ^ n))
        (decide (n ≠ 0) && (s.regs[rd.val]).toNat.testBit (64 - n)) false) ∧
    exec (.shr rd count) s =
      .next (s.afterResult rd (BitVec.ofNat 64 ((s.regs[rd.val]).toNat / 2 ^ n))
        (decide (n ≠ 0) && (s.regs[rd.val]).toNat.testBit (n - 1)) false)

/-! ## Control transfer -/

/-- R104, R108: JMP writes `pc` and nothing else. -/
def Obligations.JmpCompletes : Prop :=
  ∀ (tgt : Operand) (s : State), s.Resolves tgt → exec (.jmp tgt) s = .next { s with pc := s.operandValue tgt }

/-- R106, R109 to R116: the eight conditional branches; taken or not, only `pc` may change. -/
def Obligations.ConditionalBranchesComplete : Prop :=
  ∀ (tgt : Operand) (s : State), s.Resolves tgt →
    (exec (.jz tgt) s = .next { s with pc := if s.flags.z = true then s.operandValue tgt else s.pc }) ∧
    (exec (.jnz tgt) s = .next { s with pc := if s.flags.z = false then s.operandValue tgt else s.pc }) ∧
    (exec (.jc tgt) s = .next { s with pc := if s.flags.c = true then s.operandValue tgt else s.pc }) ∧
    (exec (.jnc tgt) s = .next { s with pc := if s.flags.c = false then s.operandValue tgt else s.pc }) ∧
    (exec (.jl tgt) s = .next { s with pc := if s.flags.n ≠ s.flags.v then s.operandValue tgt else s.pc }) ∧
    (exec (.jle tgt) s =
      .next { s with pc := if s.flags.z = true ∨ s.flags.n ≠ s.flags.v then s.operandValue tgt else s.pc }) ∧
    (exec (.jg tgt) s =
      .next { s with pc := if s.flags.z = false ∧ s.flags.n = s.flags.v then s.operandValue tgt else s.pc }) ∧
    (exec (.jge tgt) s = .next { s with pc := if s.flags.n = s.flags.v then s.operandValue tgt else s.pc })

/-- R106, its derived part: after CMP every branch condition is a test of equality, of the borrow, or of bit 63 of the
difference. -/
def Obligations.BranchesAfterCompare : Prop :=
  ∀ (ra : Reg) (src tgt : Operand) (s t : State), s.Resolves src → exec (.cmp ra src) s = .next t → t.Resolves tgt →
    (exec (.jz tgt) t =
      .next { t with pc := if (s.regs[ra.val]).toNat = (s.operandValue src).toNat then t.operandValue tgt else t.pc }) ∧
    (exec (.jc tgt) t =
      .next { t with pc := if (s.regs[ra.val]).toNat < (s.operandValue src).toNat then t.operandValue tgt else t.pc }) ∧
    (exec (.jl tgt) t =
      .next { t with pc := if (s.regs[ra.val] - s.operandValue src).getLsbD 63 = true then t.operandValue tgt else t.pc }) ∧
    (exec (.jge tgt) t =
      .next { t with pc := if (s.regs[ra.val] - s.operandValue src).getLsbD 63 = false then t.operandValue tgt else t.pc })

/-- R117: LOOP; the target is resolved before the counter changes, and no flag changes. -/
def Obligations.LoopCompletes : Prop :=
  ∀ (rc : Reg) (tgt : Operand) (s : State), s.Resolves tgt →
    exec (.loop rc tgt) s =
      .next { s with
              regs := s.regs.set rc.val (BitVec.ofNat 64 (2 ^ 64 + (s.regs[rc.val]).toNat - 1))
              pc := if (s.regs[rc.val]).toNat = 1 then s.pc else s.operandValue tgt }

/-- R118: CALL pushes the post-fetch `pc`; the target is resolved before the push. -/
def Obligations.CallCompletes : Prop :=
  ∀ (tgt : Operand) (s : State), s.mem.wf = true → s.Resolves tgt → s.Accessible .write (s.sp - 8) 8 →
    ∃ m, Stored s.mem m (s.sp - 8).toNat 8 s.pc ∧ m.wf = true ∧
      exec (.call tgt) s = .next { s with mem := m, sp := s.sp - 8, pc := s.operandValue tgt }

/-- R119: RET pops `pc`; no flag and no register changes. -/
def Obligations.RetCompletes : Prop :=
  ∀ s : State, s.Accessible .read s.sp 8 →
    exec .ret s = .next { s with pc := s.word64 s.sp, sp := s.sp + 8 }

/-- 95_test_vectors.md invariants 3 and 4: PUSH of a register then POP of it leaves every register and `sp`; CALL, then
whatever changes `pc`, then RET, comes back after the CALL with the registers, the flags and `sp` as before. -/
def Obligations.StackRoundTripsRestore : Prop :=
  ∀ s : State, s.config.memorySizeOk = true → s.mem.wf = true →
    s.Accessible .write (s.sp - 8) 8 → s.Accessible .read (s.sp - 8) 8 →
    (∀ r : Reg, ∃ t m, exec (.push (.register r)) s = .next t ∧ exec (.pop r) t = .next { s with mem := m } ∧
      Stored s.mem m (s.sp - 8).toNat 8 s.regs[r.val]) ∧
    (∀ (tgt : Operand) (p : Word), s.Resolves tgt →
      ∃ t u, exec (.call tgt) s = .next t ∧ exec .ret { t with pc := p } = .next u ∧
        u.pc = s.pc ∧ u.sp = s.sp ∧ u.regs = s.regs ∧ u.flags = s.flags)

/-- R120, R126: NOP changes nothing after its fetch, HLT only clears `running`. -/
def Obligations.NopHltComplete : Prop :=
  ∀ s : State, exec .nop s = .next s ∧ exec .hlt s = .next { s with running := false }

/-! ## Ports -/

/-- R125, R127: PRINT records the value and changes nothing else. -/
def Obligations.PrintCompletes : Prop :=
  ∀ (src : Operand) (s : State), s.Resolves src →
    exec (.print src) s = .next { s with trace := s.trace ++ [.print (s.operandValue src)] }

/-- R123, R128: IN from port 0 with a supplied value, from port 1 (the free draw, whatever it is; log 5), and from any other
port. -/
def Obligations.InCompletes : Prop :=
  ∀ (rd : Reg) (port : Operand) (s : State), s.Resolves port →
    (∀ v rest, (s.operandValue port).toNat = 0 → s.port0Input = v :: rest →
      exec (.inPort rd port) s =
        .next { s with regs := s.regs.set rd.val v, port0Input := rest, portWait := none,
                       trace := s.trace ++ [.portRead 0 v] }) ∧
    ((s.operandValue port).toNat = 1 →
      ∃ d : BitVec 32, d = Config.port1Time s.port1Draws ∧
        exec (.inPort rd port) s =
          .next { s with regs := s.regs.set rd.val (d.setWidth 64), port1Draws := s.port1Draws + 1,
                         trace := s.trace ++ [.portRead 1 (d.setWidth 64)] }) ∧
    (1 < (s.operandValue port).toNat → exec (.inPort rd port) s = .next { s with regs := s.regs.set rd.val 0 })

/-- R123, D40 (the model's form of the hold: log 3): IN from port 0 with no value supplied holds; the held step changes
nothing until a value is supplied, and then does what IN does. -/
def Obligations.InFromPortZeroHolds : Prop :=
  (∀ (rd : Reg) (port : Operand) (s : State), s.Resolves port → (s.operandValue port).toNat = 0 → s.port0Input = [] →
    exec (.inPort rd port) s = .next { s with portWait := some rd }) ∧
  (∀ (rd : Reg) (s : State), s.running = true → s.portWait = some rd → s.port0Input = [] → step s = .next s) ∧
  (∀ (rd : Reg) (s : State) (v : Word) (rest : List Word), s.running = true → s.portWait = some rd →
    s.port0Input = v :: rest →
    step s = .next { s with regs := s.regs.set rd.val v, port0Input := rest, portWait := none,
                            trace := s.trace ++ [.portRead 0 v] })

/-- R124, R129: OUT to port 0, to port 1, and to any other port. -/
def Obligations.OutCompletes : Prop :=
  ∀ (rs : Reg) (port : Operand) (s : State), s.Resolves port →
    ((s.operandValue port).toNat = 0 →
      exec (.outPort rs port) s = .next { s with trace := s.trace ++ [.portWrite 0 s.regs[rs.val]] }) ∧
    ((s.operandValue port).toNat = 1 →
      exec (.outPort rs port) s = .next { s with trace := s.trace ++ [.portWrite 1 s.regs[rs.val]] }) ∧
    (1 < (s.operandValue port).toNat → exec (.outPort rs port) s = .next s)

/-! ## Errors -/

/-- R68, R105, R132, R136: for every instruction with a mode-resolved operand, an error of resolving it is taken, and nothing
else changes: no branch condition, divisor, counter, stack or port is looked at first. -/
def Obligations.OperandErrorIsTaken : Prop :=
  ∀ (i : Instr) (o : Operand) (e : Err) (s : State), i.operand? = some o → s.OperandFails e o →
    exec i s = .next (s.haltedBy e)

/-- R81 to R85, R118, R119, R136: the instruction's own data access fails after its operand resolved; the error is taken and,
without PARTIAL_WRITE, nothing else changes. The write-back of MOV is such an access under MOV_WRITEBACK = SYMMETRIC. -/
def Obligations.DataAccessErrorIsTaken : Prop :=
  ∀ (r : Reg) (o : Operand) (e : Err) (s : State),
    (s.AccessFails .read s.sp 8 e → exec (.pop r) s = .next (s.haltedBy e) ∧ exec .ret s = .next (s.haltedBy e)) ∧
    (s.Resolves o →
      (s.AccessFails .read (s.operandValue o) 8 e → exec (.load r o) s = .next (s.haltedBy e)) ∧
      (s.config.partialWrite = false →
        (s.AccessFails .write (s.operandValue o) 8 e → exec (.store o r) s = .next (s.haltedBy e)) ∧
        (s.AccessFails .write (s.sp - 8) 8 e →
          exec (.push o) s = .next (s.haltedBy e) ∧ exec (.call o) s = .next (s.haltedBy e)) ∧
        (s.config.movWriteBack = .symmetric →
          (∀ a : BitVec 32, o = .memory a → s.AccessFails .write (a.setWidth 64) 8 e →
            exec (.mov r o) s = .next (s.haltedBy e)) ∧
          (∀ q : Reg, o = .registerIndirect q → s.AccessFails .write s.regs[r.val] 8 e →
            exec (.mov r o) s = .next (s.haltedBy e)))))

/-- R132, R133: whatever error a step takes, the general registers, `sp`, the flags and the trace are as before it, `pc` is
the instruction's address for an error of the fetch and that plus 8 for every later one, and memory is as before but, under
PARTIAL_WRITE, for bytes below the denied byte of a write. -/
def Obligations.ErrorsArePrecise : Prop :=
  ∀ s t : State, s.config.memorySizeOk = true → s.mem.wf = true → s.running = true → s.err = ErrReg.clear →
    step s = .next t → t.err ≠ ErrReg.clear →
    t.running = false ∧ t.regs = s.regs ∧ t.sp = s.sp ∧ t.flags = s.flags ∧ t.trace = s.trace ∧
    ((∃ e left, s.memFetch s.pc = .raised e left) → t.pc = s.pc) ∧
    ((∃ w, s.memFetch s.pc = .done w) → t.pc = s.pc + 8) ∧
    (s.config.partialWrite = false → t.mem = s.mem) ∧
    (∀ a, t.mem.read a ≠ s.mem.read a →
      t.err.kind = .accessViolation ∧ t.err.access = .write ∧ a < t.err.addr.toNat ∧ t.err.addr.toNat < a + 8)

/-! ## The step -/

/-- A step runs the decoded instruction: `exec` acts on the state with `pc` advanced by 8. -/
def Obligations.StepRunsDecodedInstruction : Prop :=
  ∀ (s : State) (i : Instr), s.Fetches → decode s.config (s.word64 s.pc) = .ok i →
    step s = exec i { s with pc := s.pc + 8 }

/-- R76: one step, in each of its cases (`portWait` is the model's hold of a port 0 read: log 3). -/
def Obligations.StepFollowsRule : Prop :=
  ∀ s : State,
    (s.running = false → step s = .next s) ∧
    (s.running = true → s.portWait = none →
      (∀ e left, s.memFetch s.pc = .raised e left → step s = .next (s.haltedBy e)) ∧
      (∀ w, s.memFetch s.pc = .done w →
        (∀ x, decode s.config w = .error x → step s = .next ({ s with pc := s.pc + 8 }.haltedBy (.illegalOpcode s.pc))) ∧
        (∀ i, decode s.config w = .ok i → step s = exec i { s with pc := s.pc + 8 })))

/-- R134: an illegal word, and the rule's example. -/
def Obligations.IllegalWordIsTaken : Prop :=
  (∀ (s : State) (x : Illegal), s.Fetches → decode s.config (s.word64 s.pc) = .error x →
    step s = .next ({ s with pc := s.pc + 8 }.haltedBy (.illegalOpcode s.pc))) ∧
  (∃ t, step (State.reset.withFetchWord 64 0xFF00000000000000) = .next t ∧
    t.running = false ∧ t.err.kind.code = 3 ∧ t.err.addr = 0 ∧ t.pc = 8)

/-- R132, R154, R155: no step and no instruction stops the model: each answers a next state, from every state. -/
def Obligations.EveryStepAnswersNext : Prop :=
  (∀ s : State, ∃ t, step s = .next t) ∧ ∀ (i : Instr) (s : State), ∃ t, exec i s = .next t

/-- R29, R40: no step changes the segment table or the flag I; R125: the trace only grows, here by at most one event. That
no step changes the parameters is the model's reading, DEDUCED (log 2): R147 fixes MEMORY_SIZE for the life of the machine,
and R8 calls the others arguments a model takes. -/
def Obligations.StepKeepsWhatOnlyHostChanges : Prop :=
  ∀ s t : State, step s = .next t →
    t.config = s.config ∧ t.segments = s.segments ∧ t.flags.i = s.flags.i ∧
      ∃ l, l.length ≤ 1 ∧ t.trace = s.trace ++ l

/-- The invariant every step keeps: canonical memory inside its bounds, ERR clear while running, ERR's fields as R26 says.
It is the model's: that the parameters stand in the state is log 2, the clause about a held step rests on log 3. -/
def Obligations.StepKeepsTheInvariant : Prop :=
  ∀ s t : State, s.Inv → step s = .next t → t.Inv

/-- Construction gives a state with the invariant, for every configuration R8 allows, and so does reset, whose memory size
is the model's choice (log 1). -/
def Obligations.ResetMeetsTheInvariant : Prop :=
  (∀ c : Config, c.wf = true → (State.construct c).Inv) ∧ State.reset.Inv

/-- Every host command keeps the invariant, and whatever it answers, the parameters stay: DEDUCED (log 2) from R8 and R147,
which fixes MEMORY_SIZE alone. -/
def Obligations.HostCommandsKeepTheInvariant : Prop :=
  ∀ (s t : State) (c : Command) (r : Reply), s.Inv → s.command c = .next (t, r) → t.Inv ∧ t.config = s.config

/-- R29: no instruction reads the flag I: two states that differ in I alone step to states that differ in I alone. -/
def Obligations.InterruptFlagIsNeverRead : Prop :=
  ∀ (s t : State) (b : Bool), step s = .next t →
    step { s with flags := { s.flags with i := b } } = .next { t with flags := { t.flags with i := b } }

/-- R26: no instruction reads ERR: two states that differ in ERR alone step to states that differ at most in ERR. -/
def Obligations.ErrorRegisterIsNeverRead : Prop :=
  ∀ (s t : State) (e : ErrReg), step s = .next t →
    ∃ t', step { s with err := e } = .next t' ∧ { t' with err := t.err } = t

/-! ## Reset and the host -/

/-- R148, R149: the machine after the host's reset. -/
def Obligations.ResetLeavesRuleState : Prop :=
  ∀ s : State,
    (∀ r : Reg, s.vmReset.regs[r.val] = 0) ∧ s.vmReset.flags = ⟨false, false, false, false, false⟩ ∧
    s.vmReset.pc = 0 ∧ s.vmReset.sp = BitVec.ofNat 64 (s.config.memorySize - 16) ∧ s.vmReset.running = false ∧
    s.vmReset.err = ⟨.none, .read, 0⟩ ∧ (∀ a, s.vmReset.mem.read a = 0) ∧
    s.vmReset.segments = s.segments ∧ s.vmReset.config = s.config ∧ s.vmReset.trace = s.trace ∧
    s.cpuReset.mem = s.mem ∧ s.cpuReset.segments = s.segments ∧ s.vmReset = { s.cpuReset with mem := s.vmReset.mem }

/-- R138: interrupt entry, its three accesses in order, all or nothing; as a host action only under INTERRUPT_ENTRY. -/
def Obligations.InterruptEntryFollowsRule : Prop :=
  ∀ (s : State) (n : Nat), s.config.memorySizeOk = true → s.mem.wf = true →
    (∀ e, s.AccessFails .write (s.sp - 8) 8 e → s.interruptEntry n = s.haltedBy e) ∧
    (s.Accessible .write (s.sp - 8) 8 → ∀ e, s.AccessFails .write (s.sp - 16) 8 e → s.interruptEntry n = s.haltedBy e) ∧
    (s.Accessible .write (s.sp - 8) 8 → s.Accessible .write (s.sp - 16) 8 →
      (∀ e, s.AccessFails .read (BitVec.ofNat 64 (8 * n)) 8 e → s.interruptEntry n = s.haltedBy e) ∧
      (s.Accessible .read (BitVec.ofNat 64 (8 * n)) 8 →
        ∃ m1 m2, Stored s.mem m1 (s.sp - 8).toNat 8 s.pc ∧
          Stored m1 m2 (s.sp - 16).toNat 8
            (BitVec.ofNat 64 (s.flags.z.toNat + 2 * s.flags.c.toNat + 4 * s.flags.n.toNat + 8 * s.flags.v.toNat +
              16 * s.flags.i.toNat)) ∧
          s.interruptEntry n =
            { s with mem := m2, sp := s.sp - 16,
                     pc := ({ s with mem := m2 } : State).word64 (BitVec.ofNat 64 (8 * n)),
                     flags := { s.flags with i := false } })) ∧
    (s.portWait = none →
      s.command (.handleInterrupt n) =
        if s.config.interruptEntry = true then .next (s.interruptEntry n, .nothing)
        else .refused .interruptEntryAbsent)

/-- R153, its success and its refusal: the words lie at `base`, `base + 8`, …, every other byte is as before, `pc` is `base`
and nothing else changes; a program too large changes nothing. -/
def Obligations.LoadedProgramReadsBack : Prop :=
  ∀ (s : State) (words : List Word) (base : Word), s.config.memorySizeOk = true → s.mem.wf = true →
    (s.config.memorySize < base.toNat + 8 * words.length → s.loadProgram words base = (s, .loadTooLarge)) ∧
    (base.toNat + 8 * words.length ≤ s.config.memorySize →
      (∀ j, j < 8 * words.length → s.permitted .write (base.toNat + j) = true) →
      ∃ t, s.loadProgram words base = (t, .ok) ∧ t = { s with mem := t.mem, pc := base } ∧
        (∀ i (h : i < words.length), t.word64 (base + BitVec.ofNat 64 (8 * i)) = words[i]) ∧
        ∀ a, ¬ (base.toNat ≤ a ∧ a < base.toNat + 8 * words.length) → t.mem.read a = s.mem.read a)

/-- R157, R158, R159: the host's accessors, in range and out of it. -/
def Obligations.HostAccessorsFollowRules : Prop :=
  ∀ (s : State) (i v f b : Nat), s.portWait = none →
    (∀ h : i < 16, s.command (.getRegister i) = .next (s, .value s.regs[i]) ∧
      s.command (.setRegister i v) = .next ({ s with regs := s.regs.set i (BitVec.ofNat 64 v) }, .nothing)) ∧
    (16 ≤ i → s.command (.getRegister i) = .next (s, .value 0) ∧ s.command (.setRegister i v) = .next (s, .nothing)) ∧
    s.command .getPc = .next (s, .value s.pc) ∧ s.command .getSp = .next (s, .value s.sp) ∧
    s.command (.setPc v) = .next ({ s with pc := BitVec.ofNat 64 v }, .nothing) ∧
    s.command (.setSp v) = .next ({ s with sp := BitVec.ofNat 64 v }, .nothing) ∧
    s.command (.getFlag f) = .next (s, .bit (decide (f ≤ 4) && s.flags.word.getLsbD f)) ∧
    (4 < f → s.command (.setFlag f b) = .next (s, .nothing)) ∧
    (f ≤ 4 → ∃ t, s.command (.setFlag f b) = .next (t, .nothing) ∧ t = { s with flags := t.flags } ∧
      ∀ g, t.flags.word.getLsbD g = if g = f then decide (b % 2 = 1) else s.flags.word.getLsbD g)

/-- R154, R162: a run that ends has ended with the core halted, and its ending is clean exactly when ERR is NONE. -/
def Obligations.RunEndsHalted : Prop :=
  ∀ (s t : State) (fuel : Nat), s.run fuel = .next t →
    t.running = false ∧ (t.ending = some .haltedClean ↔ t.err.kind = .none) ∧
      (t.err.kind ≠ .none → t.ending = some (.haltedOnError t.err))
end

