-- ==== Sys2Proof/Laws/Memory.lean ====
section
/-! SUPPORT. The laws of the byte array: read after write, and every operation keeps the canonical form and stays inside. -/

namespace Sys2Proof.Machine

/-! ## Read after write -/

theorem Memory.read_insert (m : Memory) (a x : Nat) (b : Byte) (hs : (m.map Prod.fst).Pairwise (· < ·)) :
    (m.insert a b).read x = if x = a then b else m.read x := by
  induction m with
  | nil => simp [Memory.insert, Memory.read, eq_comm]
  | cons cell rest ih =>
    obtain ⟨k, c⟩ := cell
    simp only [List.map_cons, List.pairwise_cons] at hs
    have ih := ih hs.2
    unfold Memory.insert
    split
    · simp only [Memory.read, eq_comm]
    · split
      · next h => subst h; simp only [Memory.read, eq_comm]; split <;> simp_all
      · next h1 h2 =>
        simp only [Memory.read, ih]
        split
        · next h3 => subst h3; simp [Ne.symm h2]
        · rfl

theorem Memory.read_erase (m : Memory) (a x : Nat) :
    (m.erase a).read x = if x = a then unlistedByte else m.read x := by
  induction m with
  | nil => simp [Memory.erase, Memory.read]
  | cons cell rest ih =>
    obtain ⟨k, c⟩ := cell
    unfold Memory.erase at ih ⊢
    by_cases h : k = a
    · subst h
      simp only [bne_self_eq_false, Bool.false_eq_true, not_false_eq_true, List.filter_cons_of_neg, ih, Memory.read]
      by_cases hx : x = k
      · simp [hx]
      · simp [hx, Ne.symm hx]
    · rw [List.filter_cons_of_pos (by simpa using h)]
      simp only [Memory.read, ih]
      by_cases hx : k = x
      · subst hx; simp [h]
      · simp [hx]

/-- A byte read after a byte was written (R47, R48, R58). -/
theorem Memory.read_write (m : Memory) (a x : Nat) (b : Byte) (hm : m.wf = true) :
    (m.write a b).read x = if x = a then b else m.read x := by
  simp only [Memory.wf, Bool.and_eq_true, decide_eq_true_eq] at hm
  unfold Memory.write
  split
  · next h => subst h; exact m.read_erase a x
  · exact m.read_insert a x b hm.1

/-! ## The canonical form -/

theorem Memory.mem_insert {m : Memory} {a : Nat} {b : Byte} {cell : Host.Cell} (h : cell ∈ m.insert a b) :
    cell = (a, b) ∨ cell ∈ m := by
  induction m with
  | nil => simpa [Memory.insert] using h
  | cons c rest ih =>
    obtain ⟨k, y⟩ := c
    unfold Memory.insert at h
    split at h
    · simpa using h
    · split at h
      · simp only [List.mem_cons] at h ⊢; tauto
      · simp only [List.mem_cons] at h ⊢
        rcases h with h | h
        · exact .inr (.inl h)
        · rcases ih h with h | h
          · exact .inl h
          · exact .inr (.inr h)

theorem Memory.sorted_insert (m : Memory) (a : Nat) (b : Byte) (hs : (m.map Prod.fst).Pairwise (· < ·)) :
    ((m.insert a b).map Prod.fst).Pairwise (· < ·) := by
  induction m with
  | nil => simp [Memory.insert]
  | cons c rest ih =>
    obtain ⟨k, y⟩ := c
    simp only [List.map_cons, List.pairwise_cons] at hs
    unfold Memory.insert
    split
    · next h =>
      simp only [List.map_cons, List.pairwise_cons, List.mem_cons, hs.2, and_true]
      refine ⟨?_, hs.1⟩
      rintro x (rfl | hx)
      · exact h
      · exact lt_trans h (hs.1 x hx)
    · split
      · next h => subst h; simpa using hs
      · next h1 h2 =>
        simp only [List.map_cons, List.pairwise_cons, ih hs.2, and_true]
        intro x hx
        obtain ⟨cell, hc, rfl⟩ := List.mem_map.1 hx
        rcases Memory.mem_insert hc with rfl | hc
        · show k < a; omega
        · exact hs.1 _ (List.mem_map_of_mem hc)

/-- Writing a byte keeps the canonical form. -/
theorem Memory.wf_write (m : Memory) (a : Nat) (b : Byte) (hm : m.wf = true) : (m.write a b).wf = true := by
  simp only [Memory.wf, Bool.and_eq_true, decide_eq_true_eq, List.all_eq_true, bne_iff_ne] at hm ⊢
  unfold Memory.write
  split
  · refine ⟨?_, fun cell hc => hm.2 cell (List.mem_of_mem_filter hc)⟩
    exact List.Pairwise.sublist (List.filter_sublist.map Prod.fst) hm.1
  · next h =>
    refine ⟨m.sorted_insert a b hm.1, fun cell hc => ?_⟩
    rcases Memory.mem_insert hc with rfl | hc
    · exact h
    · exact hm.2 cell hc

/-- Writing a byte inside memory keeps every listed address inside. -/
theorem Memory.within_write (m : Memory) (a size : Nat) (b : Byte) (hm : m.within size = true) (ha : a < size) :
    (m.write a b).within size = true := by
  simp only [Memory.within, List.all_eq_true, decide_eq_true_eq] at hm ⊢
  unfold Memory.write
  split
  · exact fun cell hc => hm cell (List.mem_of_mem_filter hc)
  · intro cell hc
    rcases Memory.mem_insert hc with rfl | hc
    · exact ha
    · exact hm cell hc

/-- Writing bytes keeps the canonical form. -/
theorem Memory.wf_writeBytes (m : Memory) (a : Nat) (bs : List Byte) (hm : m.wf = true) :
    (m.writeBytes a bs).wf = true := by
  induction bs generalizing m a with
  | nil => exact hm
  | cons b bs ih => exact ih _ _ (m.wf_write a b hm)

/-- Writing bytes inside memory keeps every listed address inside. -/
theorem Memory.within_writeBytes (m : Memory) (a size : Nat) (bs : List Byte) (hm : m.within size = true)
    (ha : a + bs.length ≤ size) : (m.writeBytes a bs).within size = true := by
  induction bs generalizing m a with
  | nil => exact hm
  | cons b bs ih =>
    simp only [List.length_cons] at ha
    exact ih _ _ (m.within_write a size b hm (by omega)) (by omega)

/-- A byte read after bytes were written: the byte of the string at its place, or the byte as before. -/
theorem Memory.read_writeBytes (m : Memory) (a x : Nat) (bs : List Byte) (hm : m.wf = true) :
    (m.writeBytes a bs).read x =
      if a ≤ x ∧ x < a + bs.length then bs.getD (x - a) 0 else m.read x := by
  induction bs generalizing m a with
  | nil => rw [if_neg (by simp only [List.length_nil]; omega)]; rfl
  | cons b bs ih =>
    rw [Memory.writeBytes, ih _ _ (m.wf_write a b hm), m.read_write a x b hm]
    by_cases h1 : a + 1 ≤ x ∧ x < a + 1 + bs.length
    · obtain ⟨k, rfl⟩ : ∃ k, x = a + 1 + k := ⟨x - (a + 1), by omega⟩
      have e1 : a + 1 + k - (a + 1) = k := by omega
      have e2 : a + 1 + k - a = k + 1 := by omega
      rw [if_pos h1, if_pos (by simp only [List.length_cons]; omega), e1, e2]
      rfl
    · rw [if_neg h1]
      by_cases h2 : x = a
      · subst h2; simp
      · rw [if_neg h2, if_neg (by simp only [List.length_cons]; omega)]

/-! ## Bytes of a word -/

@[simp] theorem length_bytesOfWord (n : Nat) (v : Word) : (bytesOfWord n v).length = n := by
  induction n generalizing v with
  | zero => rfl
  | succ n ih => simp [bytesOfWord, ih]

/-- Byte `k` of a value is its bits `8*k+7 .. 8*k` (R48). -/
theorem getD_bytesOfWord (n k : Nat) (v : Word) (hk : k < n) :
    (bytesOfWord n v).getD k 0 = v.extractLsb' (8 * k) 8 := by
  induction n generalizing v k with
  | zero => omega
  | succ n ih =>
    cases k with
    | zero => simp [bytesOfWord]; apply BitVec.eq_of_toNat_eq; simp
    | succ k =>
      have := ih k (v >>> 8) (by omega)
      simp only [bytesOfWord, List.getD_cons_succ, this]
      apply BitVec.eq_of_toNat_eq
      simp only [BitVec.extractLsb'_toNat, BitVec.toNat_ushiftRight, ← Nat.shiftRight_add]
      congr 2
      omega

/-- Writing the bytes of a value stores it little-endian and nothing else (R48). -/
theorem Memory.stored_writeBytes (m : Memory) (a n : Nat) (v : Word) (hm : m.wf = true) :
    Stored m (m.writeBytes a (bytesOfWord n v)) a n v := by
  intro x
  rw [m.read_writeBytes a x _ hm, length_bytesOfWord]
  split
  · next h => exact getD_bytesOfWord n (x - a) v (by omega)
  · rfl

@[simp] theorem Memory.length_readBytes (m : Memory) (a n : Nat) : (m.readBytes a n).length = n := by
  induction n generalizing a with
  | zero => rfl
  | succ n ih => simp [Memory.readBytes, ih]

end Sys2Proof.Machine
end

