-- ==== Sys2Proof/Laws/State.lean ====
section
/-! SUPPORT. The fields of a state after each named update: one lemma for each field of each update. -/

namespace Sys2Proof.Machine

/-! ## setReg -/

@[simp] theorem State.setReg_config (s : State) (r : Reg) (v : Word) : (s.setReg r v).config = s.config := rfl
@[simp] theorem State.setReg_regs (s : State) (r : Reg) (v : Word) : (s.setReg r v).regs = s.regs.set r.val v := rfl
@[simp] theorem State.setReg_pc (s : State) (r : Reg) (v : Word) : (s.setReg r v).pc = s.pc := rfl
@[simp] theorem State.setReg_sp (s : State) (r : Reg) (v : Word) : (s.setReg r v).sp = s.sp := rfl
@[simp] theorem State.setReg_flags (s : State) (r : Reg) (v : Word) : (s.setReg r v).flags = s.flags := rfl
@[simp] theorem State.setReg_running (s : State) (r : Reg) (v : Word) : (s.setReg r v).running = s.running := rfl
@[simp] theorem State.setReg_err (s : State) (r : Reg) (v : Word) : (s.setReg r v).err = s.err := rfl
@[simp] theorem State.setReg_mem (s : State) (r : Reg) (v : Word) : (s.setReg r v).mem = s.mem := rfl
@[simp] theorem State.setReg_segments (s : State) (r : Reg) (v : Word) : (s.setReg r v).segments = s.segments := rfl
@[simp] theorem State.setReg_trace (s : State) (r : Reg) (v : Word) : (s.setReg r v).trace = s.trace := rfl
@[simp] theorem State.setReg_port0Input (s : State) (r : Reg) (v : Word) : (s.setReg r v).port0Input = s.port0Input := rfl
@[simp] theorem State.setReg_port1Draws (s : State) (r : Reg) (v : Word) : (s.setReg r v).port1Draws = s.port1Draws := rfl
@[simp] theorem State.setReg_portWait (s : State) (r : Reg) (v : Word) : (s.setReg r v).portWait = s.portWait := rfl

/-! ## raise -/

@[simp] theorem State.raise_config (s : State) (e : Err) : (s.raise e).config = s.config := rfl
@[simp] theorem State.raise_regs (s : State) (e : Err) : (s.raise e).regs = s.regs := rfl
@[simp] theorem State.raise_pc (s : State) (e : Err) : (s.raise e).pc = s.pc := rfl
@[simp] theorem State.raise_sp (s : State) (e : Err) : (s.raise e).sp = s.sp := rfl
@[simp] theorem State.raise_flags (s : State) (e : Err) : (s.raise e).flags = s.flags := rfl
@[simp] theorem State.raise_running (s : State) (e : Err) : (s.raise e).running = false := rfl
@[simp] theorem State.raise_err (s : State) (e : Err) : (s.raise e).err = e.toReg := rfl
@[simp] theorem State.raise_mem (s : State) (e : Err) : (s.raise e).mem = s.mem := rfl
@[simp] theorem State.raise_segments (s : State) (e : Err) : (s.raise e).segments = s.segments := rfl
@[simp] theorem State.raise_trace (s : State) (e : Err) : (s.raise e).trace = s.trace := rfl
@[simp] theorem State.raise_port0Input (s : State) (e : Err) : (s.raise e).port0Input = s.port0Input := rfl
@[simp] theorem State.raise_port1Draws (s : State) (e : Err) : (s.raise e).port1Draws = s.port1Draws := rfl
@[simp] theorem State.raise_portWait (s : State) (e : Err) : (s.raise e).portWait = s.portWait := rfl

/-! ## resume -/

@[simp] theorem State.resume_config (s : State) : (s.resume).config = s.config := rfl
@[simp] theorem State.resume_regs (s : State) : (s.resume).regs = s.regs := rfl
@[simp] theorem State.resume_pc (s : State) : (s.resume).pc = s.pc := rfl
@[simp] theorem State.resume_sp (s : State) : (s.resume).sp = s.sp := rfl
@[simp] theorem State.resume_flags (s : State) : (s.resume).flags = s.flags := rfl
@[simp] theorem State.resume_running (s : State) : (s.resume).running = true := rfl
@[simp] theorem State.resume_err (s : State) : (s.resume).err = ErrReg.clear := rfl
@[simp] theorem State.resume_mem (s : State) : (s.resume).mem = s.mem := rfl
@[simp] theorem State.resume_segments (s : State) : (s.resume).segments = s.segments := rfl
@[simp] theorem State.resume_trace (s : State) : (s.resume).trace = s.trace := rfl
@[simp] theorem State.resume_port0Input (s : State) : (s.resume).port0Input = s.port0Input := rfl
@[simp] theorem State.resume_port1Draws (s : State) : (s.resume).port1Draws = s.port1Draws := rfl
@[simp] theorem State.resume_portWait (s : State) : (s.resume).portWait = s.portWait := rfl

/-! ## poke -/

@[simp] theorem State.poke_config (s : State) (a : Nat) (bs : List Byte) : (s.poke a bs).config = s.config := rfl
@[simp] theorem State.poke_regs (s : State) (a : Nat) (bs : List Byte) : (s.poke a bs).regs = s.regs := rfl
@[simp] theorem State.poke_pc (s : State) (a : Nat) (bs : List Byte) : (s.poke a bs).pc = s.pc := rfl
@[simp] theorem State.poke_sp (s : State) (a : Nat) (bs : List Byte) : (s.poke a bs).sp = s.sp := rfl
@[simp] theorem State.poke_flags (s : State) (a : Nat) (bs : List Byte) : (s.poke a bs).flags = s.flags := rfl
@[simp] theorem State.poke_running (s : State) (a : Nat) (bs : List Byte) : (s.poke a bs).running = s.running := rfl
@[simp] theorem State.poke_err (s : State) (a : Nat) (bs : List Byte) : (s.poke a bs).err = s.err := rfl
@[simp] theorem State.poke_mem (s : State) (a : Nat) (bs : List Byte) : (s.poke a bs).mem = s.mem.writeBytes a bs := rfl
@[simp] theorem State.poke_segments (s : State) (a : Nat) (bs : List Byte) : (s.poke a bs).segments = s.segments := rfl
@[simp] theorem State.poke_trace (s : State) (a : Nat) (bs : List Byte) : (s.poke a bs).trace = s.trace := rfl
@[simp] theorem State.poke_port0Input (s : State) (a : Nat) (bs : List Byte) : (s.poke a bs).port0Input = s.port0Input := rfl
@[simp] theorem State.poke_port1Draws (s : State) (a : Nat) (bs : List Byte) : (s.poke a bs).port1Draws = s.port1Draws := rfl
@[simp] theorem State.poke_portWait (s : State) (a : Nat) (bs : List Byte) : (s.poke a bs).portWait = s.portWait := rfl

/-! ## setFlags -/

@[simp] theorem State.setFlags_config (s : State) (r : Word) (c v : Bool) : (s.setFlags r c v).config = s.config := rfl
@[simp] theorem State.setFlags_regs (s : State) (r : Word) (c v : Bool) : (s.setFlags r c v).regs = s.regs := rfl
@[simp] theorem State.setFlags_pc (s : State) (r : Word) (c v : Bool) : (s.setFlags r c v).pc = s.pc := rfl
@[simp] theorem State.setFlags_sp (s : State) (r : Word) (c v : Bool) : (s.setFlags r c v).sp = s.sp := rfl
@[simp] theorem State.setFlags_flags (s : State) (r : Word) (c v : Bool) : (s.setFlags r c v).flags = s.flags.derive r c v := rfl
@[simp] theorem State.setFlags_running (s : State) (r : Word) (c v : Bool) : (s.setFlags r c v).running = s.running := rfl
@[simp] theorem State.setFlags_err (s : State) (r : Word) (c v : Bool) : (s.setFlags r c v).err = s.err := rfl
@[simp] theorem State.setFlags_mem (s : State) (r : Word) (c v : Bool) : (s.setFlags r c v).mem = s.mem := rfl
@[simp] theorem State.setFlags_segments (s : State) (r : Word) (c v : Bool) : (s.setFlags r c v).segments = s.segments := rfl
@[simp] theorem State.setFlags_trace (s : State) (r : Word) (c v : Bool) : (s.setFlags r c v).trace = s.trace := rfl
@[simp] theorem State.setFlags_port0Input (s : State) (r : Word) (c v : Bool) : (s.setFlags r c v).port0Input = s.port0Input := rfl
@[simp] theorem State.setFlags_port1Draws (s : State) (r : Word) (c v : Bool) : (s.setFlags r c v).port1Draws = s.port1Draws := rfl
@[simp] theorem State.setFlags_portWait (s : State) (r : Word) (c v : Bool) : (s.setFlags r c v).portWait = s.portWait := rfl

/-! ## record -/

@[simp] theorem State.record_config (s : State) (e : Event) : (s.record e).config = s.config := rfl
@[simp] theorem State.record_regs (s : State) (e : Event) : (s.record e).regs = s.regs := rfl
@[simp] theorem State.record_pc (s : State) (e : Event) : (s.record e).pc = s.pc := rfl
@[simp] theorem State.record_sp (s : State) (e : Event) : (s.record e).sp = s.sp := rfl
@[simp] theorem State.record_flags (s : State) (e : Event) : (s.record e).flags = s.flags := rfl
@[simp] theorem State.record_running (s : State) (e : Event) : (s.record e).running = s.running := rfl
@[simp] theorem State.record_err (s : State) (e : Event) : (s.record e).err = s.err := rfl
@[simp] theorem State.record_mem (s : State) (e : Event) : (s.record e).mem = s.mem := rfl
@[simp] theorem State.record_segments (s : State) (e : Event) : (s.record e).segments = s.segments := rfl
@[simp] theorem State.record_trace (s : State) (e : Event) : (s.record e).trace = s.trace ++ [e] := rfl
@[simp] theorem State.record_port0Input (s : State) (e : Event) : (s.record e).port0Input = s.port0Input := rfl
@[simp] theorem State.record_port1Draws (s : State) (e : Event) : (s.record e).port1Draws = s.port1Draws := rfl
@[simp] theorem State.record_portWait (s : State) (e : Event) : (s.record e).portWait = s.portWait := rfl

/-! ## writeResult -/

@[simp] theorem State.writeResult_config (s : State) (r : Reg) (o : AluResult) : (s.writeResult r o).config = s.config := rfl
@[simp] theorem State.writeResult_regs (s : State) (r : Reg) (o : AluResult) : (s.writeResult r o).regs = s.regs.set r.val o.result := rfl
@[simp] theorem State.writeResult_pc (s : State) (r : Reg) (o : AluResult) : (s.writeResult r o).pc = s.pc := rfl
@[simp] theorem State.writeResult_sp (s : State) (r : Reg) (o : AluResult) : (s.writeResult r o).sp = s.sp := rfl
@[simp] theorem State.writeResult_flags (s : State) (r : Reg) (o : AluResult) : (s.writeResult r o).flags = s.flags.derive o.result o.carry o.overflow := rfl
@[simp] theorem State.writeResult_running (s : State) (r : Reg) (o : AluResult) : (s.writeResult r o).running = s.running := rfl
@[simp] theorem State.writeResult_err (s : State) (r : Reg) (o : AluResult) : (s.writeResult r o).err = s.err := rfl
@[simp] theorem State.writeResult_mem (s : State) (r : Reg) (o : AluResult) : (s.writeResult r o).mem = s.mem := rfl
@[simp] theorem State.writeResult_segments (s : State) (r : Reg) (o : AluResult) : (s.writeResult r o).segments = s.segments := rfl
@[simp] theorem State.writeResult_trace (s : State) (r : Reg) (o : AluResult) : (s.writeResult r o).trace = s.trace := rfl
@[simp] theorem State.writeResult_port0Input (s : State) (r : Reg) (o : AluResult) : (s.writeResult r o).port0Input = s.port0Input := rfl
@[simp] theorem State.writeResult_port1Draws (s : State) (r : Reg) (o : AluResult) : (s.writeResult r o).port1Draws = s.port1Draws := rfl
@[simp] theorem State.writeResult_portWait (s : State) (r : Reg) (o : AluResult) : (s.writeResult r o).portWait = s.portWait := rfl

/-! ## setAluFlags -/

@[simp] theorem State.setAluFlags_config (s : State) (o : AluResult) : (s.setAluFlags o).config = s.config := rfl
@[simp] theorem State.setAluFlags_regs (s : State) (o : AluResult) : (s.setAluFlags o).regs = s.regs := rfl
@[simp] theorem State.setAluFlags_pc (s : State) (o : AluResult) : (s.setAluFlags o).pc = s.pc := rfl
@[simp] theorem State.setAluFlags_sp (s : State) (o : AluResult) : (s.setAluFlags o).sp = s.sp := rfl
@[simp] theorem State.setAluFlags_flags (s : State) (o : AluResult) : (s.setAluFlags o).flags = s.flags.derive o.result o.carry o.overflow := rfl
@[simp] theorem State.setAluFlags_running (s : State) (o : AluResult) : (s.setAluFlags o).running = s.running := rfl
@[simp] theorem State.setAluFlags_err (s : State) (o : AluResult) : (s.setAluFlags o).err = s.err := rfl
@[simp] theorem State.setAluFlags_mem (s : State) (o : AluResult) : (s.setAluFlags o).mem = s.mem := rfl
@[simp] theorem State.setAluFlags_segments (s : State) (o : AluResult) : (s.setAluFlags o).segments = s.segments := rfl
@[simp] theorem State.setAluFlags_trace (s : State) (o : AluResult) : (s.setAluFlags o).trace = s.trace := rfl
@[simp] theorem State.setAluFlags_port0Input (s : State) (o : AluResult) : (s.setAluFlags o).port0Input = s.port0Input := rfl
@[simp] theorem State.setAluFlags_port1Draws (s : State) (o : AluResult) : (s.setAluFlags o).port1Draws = s.port1Draws := rfl
@[simp] theorem State.setAluFlags_portWait (s : State) (o : AluResult) : (s.setAluFlags o).portWait = s.portWait := rfl

/-! ## stop -/

@[simp] theorem State.stop_config (s : State) : (s.stop).config = s.config := rfl
@[simp] theorem State.stop_regs (s : State) : (s.stop).regs = s.regs := rfl
@[simp] theorem State.stop_pc (s : State) : (s.stop).pc = s.pc := rfl
@[simp] theorem State.stop_sp (s : State) : (s.stop).sp = s.sp := rfl
@[simp] theorem State.stop_flags (s : State) : (s.stop).flags = s.flags := rfl
@[simp] theorem State.stop_running (s : State) : (s.stop).running = false := rfl
@[simp] theorem State.stop_err (s : State) : (s.stop).err = s.err := rfl
@[simp] theorem State.stop_mem (s : State) : (s.stop).mem = s.mem := rfl
@[simp] theorem State.stop_segments (s : State) : (s.stop).segments = s.segments := rfl
@[simp] theorem State.stop_trace (s : State) : (s.stop).trace = s.trace := rfl
@[simp] theorem State.stop_port0Input (s : State) : (s.stop).port0Input = s.port0Input := rfl
@[simp] theorem State.stop_port1Draws (s : State) : (s.stop).port1Draws = s.port1Draws := rfl
@[simp] theorem State.stop_portWait (s : State) : (s.stop).portWait = s.portWait := rfl

/-! ## clearMemory -/

@[simp] theorem State.clearMemory_config (s : State) : (s.clearMemory).config = s.config := rfl
@[simp] theorem State.clearMemory_regs (s : State) : (s.clearMemory).regs = s.regs := rfl
@[simp] theorem State.clearMemory_pc (s : State) : (s.clearMemory).pc = s.pc := rfl
@[simp] theorem State.clearMemory_sp (s : State) : (s.clearMemory).sp = s.sp := rfl
@[simp] theorem State.clearMemory_flags (s : State) : (s.clearMemory).flags = s.flags := rfl
@[simp] theorem State.clearMemory_running (s : State) : (s.clearMemory).running = s.running := rfl
@[simp] theorem State.clearMemory_err (s : State) : (s.clearMemory).err = s.err := rfl
@[simp] theorem State.clearMemory_mem (s : State) : (s.clearMemory).mem = [] := rfl
@[simp] theorem State.clearMemory_segments (s : State) : (s.clearMemory).segments = s.segments := rfl
@[simp] theorem State.clearMemory_trace (s : State) : (s.clearMemory).trace = s.trace := rfl
@[simp] theorem State.clearMemory_port0Input (s : State) : (s.clearMemory).port0Input = s.port0Input := rfl
@[simp] theorem State.clearMemory_port1Draws (s : State) : (s.clearMemory).port1Draws = s.port1Draws := rfl
@[simp] theorem State.clearMemory_portWait (s : State) : (s.clearMemory).portWait = s.portWait := rfl

/-! ## addSegment -/

@[simp] theorem State.addSegment_config (s : State) (g : Segment) : (s.addSegment g).config = s.config := rfl
@[simp] theorem State.addSegment_regs (s : State) (g : Segment) : (s.addSegment g).regs = s.regs := rfl
@[simp] theorem State.addSegment_pc (s : State) (g : Segment) : (s.addSegment g).pc = s.pc := rfl
@[simp] theorem State.addSegment_sp (s : State) (g : Segment) : (s.addSegment g).sp = s.sp := rfl
@[simp] theorem State.addSegment_flags (s : State) (g : Segment) : (s.addSegment g).flags = s.flags := rfl
@[simp] theorem State.addSegment_running (s : State) (g : Segment) : (s.addSegment g).running = s.running := rfl
@[simp] theorem State.addSegment_err (s : State) (g : Segment) : (s.addSegment g).err = s.err := rfl
@[simp] theorem State.addSegment_mem (s : State) (g : Segment) : (s.addSegment g).mem = s.mem := rfl
@[simp] theorem State.addSegment_segments (s : State) (g : Segment) : (s.addSegment g).segments = s.segments ++ [g] := rfl
@[simp] theorem State.addSegment_trace (s : State) (g : Segment) : (s.addSegment g).trace = s.trace := rfl
@[simp] theorem State.addSegment_port0Input (s : State) (g : Segment) : (s.addSegment g).port0Input = s.port0Input := rfl
@[simp] theorem State.addSegment_port1Draws (s : State) (g : Segment) : (s.addSegment g).port1Draws = s.port1Draws := rfl
@[simp] theorem State.addSegment_portWait (s : State) (g : Segment) : (s.addSegment g).portWait = s.portWait := rfl

/-! ## Registers -/

@[simp] theorem State.reg_setReg_same (s : State) (r : Reg) (v : Word) : (s.setReg r v).reg r = v := by
  simp [State.reg]

theorem State.reg_setReg_ne (s : State) {r q : Reg} (v : Word) (h : q ≠ r) : (s.setReg r v).reg q = s.reg q := by
  have : r.val ≠ q.val := fun e => h (Fin.ext e.symm)
  simp [State.reg, this]

/-- A register after a write of a register (R17). -/
theorem State.reg_setReg (s : State) (r q : Reg) (v : Word) :
    (s.setReg r v).reg q = if q = r then v else s.reg q := by
  split
  · next h => subst h; simp
  · next h => exact s.reg_setReg_ne v h

/-! ## SetFlagsLogic -/

/-- `SetFlagsLogic` is `SetFlags` with C and V cleared or kept (R32). -/
theorem State.setFlagsLogic_eq (s : State) (r : Word) :
    s.setFlagsLogic r = s.setFlags r (s.config.logicPreservesCV && s.flags.c) (s.config.logicPreservesCV && s.flags.v) := by
  unfold State.setFlagsLogic
  cases s.config.logicPreservesCV <;> rfl

end Sys2Proof.Machine
end

