-- ==== Sys2Proof/Laws/Ops.lean ====
section
/-! SUPPORT. For each shared operation one lemma that says once everything it can do. -/

namespace Sys2Proof.Machine

/-! ## Attempts -/

@[simp] theorem Attempt.bind_done {α β : Type} (a : α) (f : α → Attempt β) : (Attempt.done a).bind f = f a := rfl

@[simp] theorem Attempt.bind_raised {α β : Type} (e : Err) (s : State) (f : α → Attempt β) :
    (Attempt.raised e s : Attempt α).bind f = .raised e s := rfl

@[simp] theorem Attempt.finish_done (s : State) : (Attempt.done s).finish = .next s := rfl

@[simp] theorem Attempt.finish_raised (e : Err) (s : State) : (Attempt.raised e s).finish = .next (s.raise e) := rfl

/-- An instruction that ends in an attempt always answers a next state (R132). -/
theorem Attempt.finish_next (x : Attempt State) : ∃ t, x.finish = .next t := by
  cases x with
  | done s => exact ⟨s, rfl⟩
  | raised e s => exact ⟨s.raise e, rfl⟩

/-- What going on after an operation can come to. -/
theorem Attempt.bind_cases {α β : Type} (x : Attempt α) (f : α → Attempt β) :
    (∃ a, x = .done a ∧ x.bind f = f a) ∨ ∃ e s, x = .raised e s ∧ x.bind f = .raised e s := by
  cases x with
  | done a => exact .inl ⟨a, rfl, rfl⟩
  | raised e s => exact .inr ⟨e, s, rfl, rfl⟩

/-! ## Permissions -/

/-- The scan finds nothing exactly when every byte is permitted. -/
theorem State.firstDenied_none (s : State) (k : Access) (a n : Nat) :
    s.firstDenied k a n = none ↔ ∀ j, j < n → s.permitted k (a + j) = true := by
  induction n generalizing a with
  | zero => simp [State.firstDenied]
  | succ n ih =>
    unfold State.firstDenied
    split
    · next h =>
      rw [ih]
      constructor
      · intro hall j hj
        cases j with
        | zero => simpa using h
        | succ j => have := hall j (by omega); rwa [show a + (j + 1) = a + 1 + j by omega]
      · intro hall j hj
        have := hall (j + 1) (by omega)
        rwa [show a + 1 + j = a + (j + 1) by omega]
    · next h =>
      constructor
      · simp
      · intro hall; exact absurd (by simpa using hall 0 (by omega)) h

/-- The scan finds the lowest denied byte. -/
theorem State.firstDenied_some (s : State) (k : Access) (a n x : Nat) :
    s.firstDenied k a n = some x ↔
      ∃ j, x = a + j ∧ j < n ∧ s.permitted k (a + j) = false ∧ ∀ i, i < j → s.permitted k (a + i) = true := by
  induction n generalizing a with
  | zero => simp [State.firstDenied]
  | succ n ih =>
    unfold State.firstDenied
    split
    · next h =>
      rw [ih]
      constructor
      · rintro ⟨j, rfl, hj, hd, hp⟩
        refine ⟨j + 1, by omega, by omega, by rwa [show a + (j + 1) = a + 1 + j by omega], ?_⟩
        intro i hi
        cases i with
        | zero => simpa using h
        | succ i => have := hp i (by omega); rwa [show a + (i + 1) = a + 1 + i by omega]
      · rintro ⟨j, rfl, hj, hd, hp⟩
        cases j with
        | zero => simp only [Nat.add_zero] at hd; simp [hd] at h
        | succ j =>
          refine ⟨j, by omega, by omega, by rwa [show a + 1 + j = a + (j + 1) by omega], ?_⟩
          intro i hi
          have := hp (i + 1) (by omega)
          rwa [show a + 1 + i = a + (i + 1) by omega]
    · next h =>
      simp only [Bool.not_eq_true] at h
      constructor
      · rintro ⟨⟩
        exact ⟨0, rfl, by omega, h, by omega⟩
      · rintro ⟨j, rfl, hj, hd, hp⟩
        cases j with
        | zero => rfl
        | succ j =>
          have h0 := hp 0 (by omega)
          rw [Nat.add_zero, h] at h0
          cases h0

/-! ## Checked accesses -/

/-- All a checked read can do: the bytes' value, or an error that leaves the state as it was (R47). -/
theorem State.memRead_cases (s : State) (addr : Word) (n : Nat) :
    (s.Accessible .read addr n ∧ s.memRead addr n = .done (wordOfBytes (s.mem.readBytes addr.toNat n))) ∨
      ∃ e, s.AccessFails .read addr n e ∧ s.memRead addr n = .raised e s := by
  unfold State.memRead State.outOfBounds
  by_cases hb : s.config.memorySize < addr.toNat + n
  · right; exact ⟨_, .inl ⟨hb, rfl⟩, by simp [hb]⟩
  · simp only [hb, decide_false, Bool.false_eq_true, if_false]
    cases hd : s.firstDenied .read addr.toNat n with
    | none => left; exact ⟨⟨by omega, (s.firstDenied_none _ _ _).1 hd⟩, rfl⟩
    | some x =>
      right
      obtain ⟨j, rfl, hj, h1, h2⟩ := (s.firstDenied_some _ _ _ _).1 hd
      refine ⟨_, .inr ⟨j, ⟨by omega, hj, h1, h2⟩, rfl⟩, ?_⟩
      simp [BitVec.ofNat_add]

/-- All a checked write can do: the bytes stored, or an error that leaves the state as it was, but for the bytes below
the denied one under PARTIAL_WRITE (R48). -/
theorem State.memWrite_cases (s : State) (addr : Word) (n : Nat) (v : Word) :
    (s.Accessible .write addr n ∧ s.memWrite addr n v = .done (s.poke addr.toNat (bytesOfWord n v))) ∨
      (s.config.memorySize < addr.toNat + n ∧ s.memWrite addr n v = .raised (.badAddress addr) s) ∨
      ∃ j, s.DeniedAt .write addr n j ∧
        s.memWrite addr n v = .raised (.accessViolation .write (addr + BitVec.ofNat 64 j))
          (if s.config.partialWrite then s.poke addr.toNat ((bytesOfWord n v).take j) else s) := by
  unfold State.memWrite State.outOfBounds
  by_cases hb : s.config.memorySize < addr.toNat + n
  · right; left; exact ⟨hb, by simp [hb]⟩
  · simp only [hb, decide_false, Bool.false_eq_true, if_false]
    cases hd : s.firstDenied .write addr.toNat n with
    | none => left; exact ⟨⟨by omega, (s.firstDenied_none _ _ _).1 hd⟩, rfl⟩
    | some x =>
      right; right
      obtain ⟨j, rfl, hj, h1, h2⟩ := (s.firstDenied_some _ _ _ _).1 hd
      refine ⟨j, ⟨by omega, hj, h1, h2⟩, ?_⟩
      simp [BitVec.ofNat_add]

/-- The two ways an access goes exclude each other. -/
theorem State.accessible_or_fails (s : State) (k : Access) (addr : Word) (n : Nat) (e : Err)
    (h : s.Accessible k addr n) : ¬ s.AccessFails k addr n e := by
  rintro (⟨hb, -⟩ | ⟨j, ⟨-, hj, hd, -⟩, -⟩)
  · exact absurd h.1 (by omega)
  · simp [h.2 j hj] at hd

/-! ## Operands -/

/-- All resolving an operand can do: a value, or an error that leaves the state as it was (R68). -/
theorem State.readOperand_cases (s : State) (o : Operand) :
    (∃ v, s.Resolves o ∧ s.readOperand o = .done v) ∨
      ∃ e, s.OperandFails e o ∧ s.readOperand o = .raised e s := by
  cases o with
  | register r => exact .inl ⟨_, trivial, rfl⟩
  | immediate v => exact .inl ⟨_, trivial, rfl⟩
  | memory a =>
    rcases s.memRead_cases (a.setWidth 64) 8 with ⟨h, e⟩ | ⟨x, h, e⟩
    · exact .inl ⟨_, h, e⟩
    · exact .inr ⟨x, h, e⟩
  | registerIndirect r =>
    rcases s.memRead_cases (s.reg r) 8 with ⟨h, e⟩ | ⟨x, h, e⟩
    · exact .inl ⟨_, h, e⟩
    · exact .inr ⟨x, h, e⟩
  | undefinedMode m => exact .inr ⟨_, rfl, rfl⟩

/-- What an instruction with an operand can do: go on with a value, or take the error of the read (R132, R136). -/
theorem State.withOperand_cases (s : State) (o : Operand) (k : Word → Attempt State) :
    (∃ v, s.Resolves o ∧ s.readOperand o = .done v ∧ s.withOperand o k = (k v).finish) ∨
      ∃ e, s.OperandFails e o ∧ s.readOperand o = .raised e s ∧ s.withOperand o k = .next (s.raise e) := by
  unfold State.withOperand
  rcases s.readOperand_cases o with ⟨v, h, e⟩ | ⟨x, h, e⟩
  · exact .inl ⟨v, h, e, by rw [e, Attempt.bind_done]⟩
  · exact .inr ⟨x, h, e, by rw [e]; rfl⟩

/-! ## Stack -/

/-- All a push can do (R79). -/
theorem State.push_cases (s : State) (v : Word) :
    (s.Accessible .write (s.sp - 8) 8 ∧
        s.push v = .done { s.poke (s.sp - 8).toNat (bytesOfWord 8 v) with sp := s.sp - 8 }) ∨
      ∃ e left, s.memWrite (s.sp - 8) 8 v = .raised e left ∧ s.push v = .raised e left := by
  unfold State.push
  rcases s.memWrite_cases (s.sp - 8) 8 v with ⟨h, e⟩ | ⟨-, e⟩ | ⟨j, -, e⟩
  · exact .inl ⟨h, by rw [e]; rfl⟩
  · exact .inr ⟨_, _, e, by rw [e]; rfl⟩
  · exact .inr ⟨_, _, e, by rw [e]; rfl⟩

/-- All a pop can do (R80). -/
theorem State.pop_cases (s : State) :
    (s.Accessible .read s.sp 8 ∧
        s.pop = .done (wordOfBytes (s.mem.readBytes s.sp.toNat 8), { s with sp := s.sp + 8 })) ∨
      ∃ e, s.AccessFails .read s.sp 8 e ∧ s.pop = .raised e s := by
  unfold State.pop
  rcases s.memRead_cases s.sp 8 with ⟨h, e⟩ | ⟨x, h, e⟩
  · exact .inl ⟨h, by rw [e]; rfl⟩
  · exact .inr ⟨x, h, by rw [e]; rfl⟩

/-! ## Bytes as numbers -/

theorem wordOfBytes_cons (b : Byte) (bs : List Byte) :
    wordOfBytes (b :: bs) = BitVec.ofNat 64 (b.toNat + 256 * (wordOfBytes bs).toNat) := by
  have e : (BitVec.setWidth 64 b) = BitVec.ofNat 64 b.toNat := by apply BitVec.eq_of_toNat_eq; simp
  have h0 : (wordOfBytes bs <<< 8) &&& b.setWidth 64 = 0 := by
    apply BitVec.eq_of_getLsbD_eq
    intro i hi
    simp only [BitVec.getLsbD_and, BitVec.getLsbD_shiftLeft, BitVec.getLsbD_setWidth]
    by_cases h : i < 8
    · simp [h]
    · simp [BitVec.getLsbD_of_ge b i (by omega)]
  show (wordOfBytes bs <<< 8) ||| b.setWidth 64 = _
  rw [← BitVec.add_eq_or_of_and_eq_zero _ _ h0, e]
  apply BitVec.eq_of_toNat_eq
  simp [BitVec.toNat_shiftLeft, Nat.shiftLeft_eq]
  omega

theorem State.numberAt_succ (s : State) (a n : Nat) :
    s.numberAt a (n + 1) = (s.mem.read a).toNat + 256 * s.numberAt (a + 1) n := by
  unfold State.numberAt
  rw [List.range_succ_eq_map]
  simp only [List.map_cons, List.sum_cons, List.map_map, Nat.add_zero, Nat.mul_zero, pow_zero, mul_one]
  congr 1
  rw [← List.sum_map_mul_left]
  congr 1
  apply List.map_congr_left
  intro i _
  simp only [Function.comp, Nat.succ_eq_add_one]
  rw [show a + (i + 1) = a + 1 + i by omega, show 8 * (i + 1) = 8 * i + 8 by omega, pow_add]
  ring

/-- The bytes of memory as a word are the number of R47. -/
theorem State.wordOfBytes_readBytes (s : State) (a n : Nat) :
    wordOfBytes (s.mem.readBytes a n) = BitVec.ofNat 64 (s.numberAt a n) := by
  induction n generalizing a with
  | zero => rfl
  | succ n ih =>
    rw [Memory.readBytes, wordOfBytes_cons, ih, s.numberAt_succ]
    apply BitVec.eq_of_toNat_eq
    simp only [BitVec.toNat_ofNat]
    omega

/-- The first bytes of a stored value are the value stored shorter (R48). -/
theorem take_bytesOfWord (n j : Nat) (v : Word) (h : j ≤ n) : (bytesOfWord n v).take j = bytesOfWord j v := by
  induction j generalizing n v with
  | zero => simp [bytesOfWord]
  | succ j ih =>
    obtain ⟨n, rfl⟩ : ∃ m, n = m + 1 := ⟨n - 1, by omega⟩
    simp [bytesOfWord, ih n (v >>> 8) (by omega)]

/-! ## Errors and the fetch -/

/-- Taking an error, field by field. -/
theorem State.raise_eq_haltedBy (s : State) (e : Err) : s.raise e = s.haltedBy e := by cases e <;> rfl

/-- An access fails with one error. -/
theorem State.accessFails_unique {s : State} {k : Access} {addr : Word} {n : Nat} {e e' : Err}
    (h : s.AccessFails k addr n e) (h' : s.AccessFails k addr n e') : e = e' := by
  rcases h with ⟨h1, rfl⟩ | ⟨j, ⟨h1, h2, h3, h4⟩, rfl⟩ <;> rcases h' with ⟨g1, rfl⟩ | ⟨i, ⟨g1, g2, g3, g4⟩, rfl⟩
  · rfl
  · omega
  · omega
  · rcases Nat.lt_trichotomy i j with h | rfl | h
    · have := h4 i h; simp_all
    · rfl
    · have := g4 j h; simp_all

/-- All a fetch can do: the word with `pc` advanced, or an error that leaves the state as it was (R49, R76). -/
theorem State.fetch_cases (s : State) :
    (∃ w, s.memFetch s.pc = .done w ∧ s.fetch = .done (w, { s with pc := s.pc + 8 })) ∨
      ∃ e, s.memFetch s.pc = .raised e s ∧ s.fetch = .raised e s ∧
        (s.AccessFails .read s.pc 8 e ∨ (s.config.fetchChecksExecute = true ∧ s.AccessFails .execute s.pc 8 e)) := by
  unfold State.fetch State.memFetch
  rcases s.memRead_cases s.pc 8 with ⟨h, e⟩ | ⟨x, h, e⟩ <;> rw [e]
  · simp only [Attempt.bind_done]
    split
    · next hf =>
      split
      · next a ha =>
        obtain ⟨j, rfl, hj, h1, h2⟩ := (s.firstDenied_some _ _ _ _).1 ha
        exact .inr ⟨_, rfl, rfl, .inr ⟨hf, .inr ⟨j, ⟨h.1, hj, h1, h2⟩, by simp [BitVec.ofNat_add]⟩⟩⟩
      · exact .inl ⟨_, rfl, rfl⟩
    · exact .inl ⟨_, rfl, rfl⟩
  · exact .inr ⟨_, rfl, rfl, .inl h⟩

/-! ## Write-back and the shapes of instructions -/

/-- All writing an operand back can do: one register, the 8 bytes at one address, or IllegalOpcode (R69). -/
theorem State.writeOperand_cases (s : State) (o : Operand) (r reg1 : Reg) (v : Word) :
    (∃ q, s.writeOperand o r reg1 v = .done (s.setReg q v)) ∨
      (∃ a, s.writeOperand o r reg1 v = s.memWrite a 8 v) ∨
      s.writeOperand o r reg1 v = .raised (.illegalOpcode s.instrAddr) s := by
  cases o with
  | register q => exact .inl ⟨r, rfl⟩
  | immediate v => exact .inl ⟨reg1, rfl⟩
  | memory a => exact .inr (.inl ⟨_, rfl⟩)
  | registerIndirect q => exact .inr (.inl ⟨_, rfl⟩)
  | undefinedMode m => exact .inr (.inr rfl)

/-- All an ALU instruction can do: one register and the condition flags, or the error of its operand (R33, R136). -/
theorem State.aluOp_cases (s : State) (f : Word → Word → AluResult) (rd : Reg) (src : Operand) :
    (∃ v, s.Resolves src ∧ s.readOperand src = .done v ∧
        s.aluOp f rd src = .next (s.writeResult rd (f (s.reg rd) v))) ∨
      ∃ e, s.OperandFails e src ∧ s.aluOp f rd src = .next (s.raise e) := by
  unfold State.aluOp
  rcases s.withOperand_cases src _ with ⟨v, h, hv, e⟩ | ⟨x, h, -, e⟩
  · exact .inl ⟨v, h, hv, e⟩
  · exact .inr ⟨x, h, e⟩

/-- All a division can do (R87 f, R91, R92). -/
theorem State.divisionOp_cases (s : State) (f : Word → Word → AluResult) (rd : Reg) (src : Operand) :
    (∃ v, s.Resolves src ∧ s.readOperand src = .done v ∧ v ≠ 0 ∧
        s.divisionOp f rd src = .next (s.writeResult rd (f (s.reg rd) v))) ∨
      (s.Resolves src ∧ s.readOperand src = .done 0 ∧
        s.divisionOp f rd src = .next (s.raise (.divisionByZero s.instrAddr))) ∨
      ∃ e, s.OperandFails e src ∧ s.divisionOp f rd src = .next (s.raise e) := by
  unfold State.divisionOp
  rcases s.withOperand_cases src _ with ⟨v, h, hv, e⟩ | ⟨x, h, -, e⟩
  · by_cases h0 : v = 0
    · subst h0; exact .inr (.inl ⟨h, hv, by rw [e, if_pos rfl]; rfl⟩)
    · exact .inl ⟨v, h, hv, h0, by rw [e, if_neg h0]; rfl⟩
  · exact .inr (.inr ⟨x, h, e⟩)

/-- All a logical instruction can do (R97). -/
theorem State.logicOp_cases (s : State) (f : Word → Word → Word) (rd : Reg) (src : Operand) :
    (∃ v, s.Resolves src ∧ s.readOperand src = .done v ∧
        s.logicOp f rd src = .next (s.writeLogic rd (f (s.reg rd) v))) ∨
      ∃ e, s.OperandFails e src ∧ s.logicOp f rd src = .next (s.raise e) := by
  unfold State.logicOp
  rcases s.withOperand_cases src _ with ⟨v, h, hv, e⟩ | ⟨x, h, -, e⟩
  · exact .inl ⟨v, h, hv, e⟩
  · exact .inr ⟨x, h, e⟩

/-- Deriving the flags of a logical result changes the flags alone, and never I (R32). -/
theorem State.setFlagsLogic_shape (s : State) (r : Word) :
    ∃ z c n v, s.setFlagsLogic r = { s with flags := ⟨z, c, n, v, s.flags.i⟩ } := by
  unfold State.setFlagsLogic State.setFlags Flags.derive
  split <;> exact ⟨_, _, _, _, rfl⟩

/-- All a branch can do: `pc` written or not, or the error of its target, taken or not (R104, R105). -/
theorem State.branchIf_cases (s : State) (tgt : Operand) (taken : Bool) :
    (∃ t, s.Resolves tgt ∧ s.readOperand tgt = .done t ∧
        s.branchIf tgt taken = .next { s with pc := if taken then t else s.pc }) ∨
      ∃ e, s.OperandFails e tgt ∧ s.branchIf tgt taken = .next (s.raise e) := by
  unfold State.branchIf
  rcases s.withOperand_cases tgt _ with ⟨v, h, hv, e⟩ | ⟨x, h, -, e⟩
  · exact .inl ⟨v, h, hv, by rw [e]; cases taken <;> rfl⟩
  · exact .inr ⟨x, h, e⟩

/-! ## Interrupt entry -/

/-- All interrupt entry can do: enter, or take an error in the state before it (R138). -/
theorem State.interruptEntry_cases (s : State) (n : Nat) :
    (∃ t, s.enterHandler n = .done t ∧ s.interruptEntry n = t) ∨
      ∃ e left, s.enterHandler n = .raised e left ∧ s.interruptEntry n = s.raise e := by
  unfold State.interruptEntry
  cases h : s.enterHandler n with
  | done t => exact .inl ⟨t, rfl, rfl⟩
  | raised e left => exact .inr ⟨e, left, rfl, rfl⟩

/-! ## Ports -/

/-- All a read of port 0 can do: take the next value, or hold (R123). -/
theorem State.readPort0_cases (s : State) (rd : Reg) :
    (s.port0Input = [] ∧ s.readPort0 rd = { s with portWait := some rd }) ∨
      ∃ v rest, s.port0Input = v :: rest ∧
        s.readPort0 rd = ({ s with port0Input := rest, portWait := none }.record (.portRead 0 v)).setReg rd v := by
  unfold State.readPort0
  cases h : s.port0Input with
  | nil => exact .inl ⟨rfl, rfl⟩
  | cons v rest => exact .inr ⟨v, rest, rfl, rfl⟩

/-! ## Reset -/

/-- The memory of the machine right after reset is in canonical form and lies inside memory. -/
theorem State.reset_mem_wf : State.reset.mem.wf = true ∧ State.reset.mem.within resetMemorySize = true := ⟨rfl, rfl⟩

end Sys2Proof.Machine
end

