-- ==== Sys2Proof/Laws/PerInstr.lean ====
section
/-! SUPPORT. A statement about every instruction as syntax, proved constructor by constructor: its word carries its opcode,
the mode of its operand (0 where it has none) and a zero reserved field (R64, R65). -/

namespace Sys2Proof.Laws

/-- A field of a packed word, bit by bit. -/
theorem extract_packFields {op : BitVec 8} {mode : BitVec 4} {r1 r2 : Reg} {imm : BitVec 32} (k n : Nat) (x : BitVec n)
    (h : ∀ i, i < n → (packFields op mode r1 r2 imm).getLsbD (k + i) = x.getLsbD i) :
    (packFields op mode r1 r2 imm).extractLsb' k n = x := by
  apply BitVec.eq_of_getLsbD_eq
  intro i hi
  simp [hi, h i hi]

/-- The fields of a packed word are the ones it was packed from (R64, R65). -/
theorem cutFields_packFields (op : BitVec 8) (mode : BitVec 4) (r1 r2 : Reg) (imm : BitVec 32) :
    cutFields (packFields op mode r1 r2 imm) =
      { opcode := op, mode := mode, reg1 := r1, reg2 := r2, rsvd := 0, imm := imm } := by
  have h1 := extract_packFields (op := op) (mode := mode) (r1 := r1) (r2 := r2) (imm := imm) 56 8 op (by
    intro i hi; unfold packFields; simp (disch := omega) only [BitVec.getLsbD_append, if_neg]; congr 1; omega)
  have h2 := extract_packFields (op := op) (mode := mode) (r1 := r1) (r2 := r2) (imm := imm) 52 4 mode (by
    intro i hi; unfold packFields; simp (disch := omega) only [BitVec.getLsbD_append, if_neg, if_pos]; congr 1; omega)
  have h3 := extract_packFields (op := op) (mode := mode) (r1 := r1) (r2 := r2) (imm := imm) 48 4 (BitVec.ofFin r1) (by
    intro i hi; unfold packFields; simp (disch := omega) only [BitVec.getLsbD_append, if_neg, if_pos]; congr 1; omega)
  have h4 := extract_packFields (op := op) (mode := mode) (r1 := r1) (r2 := r2) (imm := imm) 44 4 (BitVec.ofFin r2) (by
    intro i hi; unfold packFields; simp (disch := omega) only [BitVec.getLsbD_append, if_neg, if_pos]; congr 1; omega)
  have h5 := extract_packFields (op := op) (mode := mode) (r1 := r1) (r2 := r2) (imm := imm) 32 12 0 (by
    intro i hi; unfold packFields; simp (disch := omega) only [BitVec.getLsbD_append, if_neg, if_pos]; simp)
  have h6 := extract_packFields (op := op) (mode := mode) (r1 := r1) (r2 := r2) (imm := imm) 0 32 imm (by
    intro i hi; unfold packFields; simp (disch := omega) only [BitVec.getLsbD_append, if_neg, if_pos]; congr 1; omega)
  unfold cutFields
  rw [h1, h2, h3, h4, h5, h6]

/-- The word of an instruction carries its opcode, the mode of its operand and a zero reserved field (R65). -/
def EncodingFields.Statement (i : Instr) : Prop :=
  ∀ c : Config,
    (cutFields (encode c i)).opcode = c.opcodeOf i.mnemonic ∧
    (cutFields (encode c i)).mode = (i.operand?.map Operand.modeField).getD 0 ∧
    (cutFields (encode c i)).rsvd = 0

/-- An instruction whose word is packed from its opcode, its mode and some registers and immediate. -/
theorem encodingFields_of {i : Instr}
    (h : ∀ c : Config, ∃ r1 r2 imm, cutFields (encode c i) =
      { opcode := c.opcodeOf i.mnemonic, mode := (i.operand?.map Operand.modeField).getD 0, reg1 := r1, reg2 := r2,
        rsvd := 0, imm := imm }) : EncodingFields.Statement i := by
  intro c
  obtain ⟨r1, r2, imm, e⟩ := h c
  rw [e]
  exact ⟨rfl, rfl, rfl⟩

theorem EncodingFields.nop : EncodingFields.Statement (.nop) :=
  encodingFields_of fun _ => ⟨_, _, _, cutFields_packFields ..⟩
theorem EncodingFields.mov (rd : Reg) (src : Operand) : EncodingFields.Statement (.mov rd src) :=
  encodingFields_of fun _ => ⟨_, _, _, cutFields_packFields ..⟩
theorem EncodingFields.load (rd : Reg) (addr : Operand) : EncodingFields.Statement (.load rd addr) :=
  encodingFields_of fun _ => ⟨_, _, _, cutFields_packFields ..⟩
theorem EncodingFields.store (addr : Operand) (rs : Reg) : EncodingFields.Statement (.store addr rs) :=
  encodingFields_of fun _ => ⟨_, _, _, cutFields_packFields ..⟩
theorem EncodingFields.push (src : Operand) : EncodingFields.Statement (.push src) :=
  encodingFields_of fun _ => ⟨_, _, _, cutFields_packFields ..⟩
theorem EncodingFields.pop (rd : Reg) : EncodingFields.Statement (.pop rd) :=
  encodingFields_of fun _ => ⟨_, _, _, cutFields_packFields ..⟩
theorem EncodingFields.add (rd : Reg) (src : Operand) : EncodingFields.Statement (.add rd src) :=
  encodingFields_of fun _ => ⟨_, _, _, cutFields_packFields ..⟩
theorem EncodingFields.sub (rd : Reg) (src : Operand) : EncodingFields.Statement (.sub rd src) :=
  encodingFields_of fun _ => ⟨_, _, _, cutFields_packFields ..⟩
theorem EncodingFields.mul (rd : Reg) (src : Operand) : EncodingFields.Statement (.mul rd src) :=
  encodingFields_of fun _ => ⟨_, _, _, cutFields_packFields ..⟩
theorem EncodingFields.div (rd : Reg) (src : Operand) : EncodingFields.Statement (.div rd src) :=
  encodingFields_of fun _ => ⟨_, _, _, cutFields_packFields ..⟩
theorem EncodingFields.mod (rd : Reg) (src : Operand) : EncodingFields.Statement (.mod rd src) :=
  encodingFields_of fun _ => ⟨_, _, _, cutFields_packFields ..⟩
theorem EncodingFields.inc (rd : Reg) : EncodingFields.Statement (.inc rd) :=
  encodingFields_of fun _ => ⟨_, _, _, cutFields_packFields ..⟩
theorem EncodingFields.dec (rd : Reg) : EncodingFields.Statement (.dec rd) :=
  encodingFields_of fun _ => ⟨_, _, _, cutFields_packFields ..⟩
theorem EncodingFields.cmp (ra : Reg) (src : Operand) : EncodingFields.Statement (.cmp ra src) :=
  encodingFields_of fun _ => ⟨_, _, _, cutFields_packFields ..⟩
theorem EncodingFields.swap (ra : Reg) (rb : Reg) : EncodingFields.Statement (.swap ra rb) :=
  encodingFields_of fun _ => ⟨_, _, _, cutFields_packFields ..⟩
theorem EncodingFields.and (rd : Reg) (src : Operand) : EncodingFields.Statement (.and rd src) :=
  encodingFields_of fun _ => ⟨_, _, _, cutFields_packFields ..⟩
theorem EncodingFields.or (rd : Reg) (src : Operand) : EncodingFields.Statement (.or rd src) :=
  encodingFields_of fun _ => ⟨_, _, _, cutFields_packFields ..⟩
theorem EncodingFields.xor (rd : Reg) (src : Operand) : EncodingFields.Statement (.xor rd src) :=
  encodingFields_of fun _ => ⟨_, _, _, cutFields_packFields ..⟩
theorem EncodingFields.not (rd : Reg) : EncodingFields.Statement (.not rd) :=
  encodingFields_of fun _ => ⟨_, _, _, cutFields_packFields ..⟩
theorem EncodingFields.shl (rd : Reg) (count : Operand) : EncodingFields.Statement (.shl rd count) :=
  encodingFields_of fun _ => ⟨_, _, _, cutFields_packFields ..⟩
theorem EncodingFields.shr (rd : Reg) (count : Operand) : EncodingFields.Statement (.shr rd count) :=
  encodingFields_of fun _ => ⟨_, _, _, cutFields_packFields ..⟩
theorem EncodingFields.jmp (tgt : Operand) : EncodingFields.Statement (.jmp tgt) :=
  encodingFields_of fun _ => ⟨_, _, _, cutFields_packFields ..⟩
theorem EncodingFields.jz (tgt : Operand) : EncodingFields.Statement (.jz tgt) :=
  encodingFields_of fun _ => ⟨_, _, _, cutFields_packFields ..⟩
theorem EncodingFields.jnz (tgt : Operand) : EncodingFields.Statement (.jnz tgt) :=
  encodingFields_of fun _ => ⟨_, _, _, cutFields_packFields ..⟩
theorem EncodingFields.jc (tgt : Operand) : EncodingFields.Statement (.jc tgt) :=
  encodingFields_of fun _ => ⟨_, _, _, cutFields_packFields ..⟩
theorem EncodingFields.jnc (tgt : Operand) : EncodingFields.Statement (.jnc tgt) :=
  encodingFields_of fun _ => ⟨_, _, _, cutFields_packFields ..⟩
theorem EncodingFields.jl (tgt : Operand) : EncodingFields.Statement (.jl tgt) :=
  encodingFields_of fun _ => ⟨_, _, _, cutFields_packFields ..⟩
theorem EncodingFields.jle (tgt : Operand) : EncodingFields.Statement (.jle tgt) :=
  encodingFields_of fun _ => ⟨_, _, _, cutFields_packFields ..⟩
theorem EncodingFields.jg (tgt : Operand) : EncodingFields.Statement (.jg tgt) :=
  encodingFields_of fun _ => ⟨_, _, _, cutFields_packFields ..⟩
theorem EncodingFields.jge (tgt : Operand) : EncodingFields.Statement (.jge tgt) :=
  encodingFields_of fun _ => ⟨_, _, _, cutFields_packFields ..⟩
theorem EncodingFields.loop (rc : Reg) (tgt : Operand) : EncodingFields.Statement (.loop rc tgt) :=
  encodingFields_of fun _ => ⟨_, _, _, cutFields_packFields ..⟩
theorem EncodingFields.call (tgt : Operand) : EncodingFields.Statement (.call tgt) :=
  encodingFields_of fun _ => ⟨_, _, _, cutFields_packFields ..⟩
theorem EncodingFields.ret : EncodingFields.Statement (.ret) :=
  encodingFields_of fun _ => ⟨_, _, _, cutFields_packFields ..⟩
theorem EncodingFields.hlt : EncodingFields.Statement (.hlt) :=
  encodingFields_of fun _ => ⟨_, _, _, cutFields_packFields ..⟩
theorem EncodingFields.print (src : Operand) : EncodingFields.Statement (.print src) :=
  encodingFields_of fun _ => ⟨_, _, _, cutFields_packFields ..⟩
theorem EncodingFields.inPort (rd : Reg) (port : Operand) : EncodingFields.Statement (.inPort rd port) :=
  encodingFields_of fun _ => ⟨_, _, _, cutFields_packFields ..⟩
theorem EncodingFields.outPort (rs : Reg) (port : Operand) : EncodingFields.Statement (.outPort rs port) :=
  encodingFields_of fun _ => ⟨_, _, _, cutFields_packFields ..⟩

end Sys2Proof.Laws
end

