-- ==== Sys2Proof/Laws/Step.lean ====
section
/-! SUPPORT. What a step finds to do, in each of its cases. -/

namespace Sys2Proof.Machine

/-- All a step can find to do (R76). -/
theorem State.phase_cases (s : State) :
    (s.running = false ∧ s.phase = .halted) ∨
    (s.running = true ∧ ∃ rd, s.portWait = some rd ∧ s.phase = .holding rd) ∨
    (s.running = true ∧ s.portWait = none ∧ ∃ e, s.memFetch s.pc = .raised e s ∧ s.phase = .fetchFailed e ∧
      (s.AccessFails .read s.pc 8 e ∨ (s.config.fetchChecksExecute = true ∧ s.AccessFails .execute s.pc 8 e))) ∨
    (s.running = true ∧ s.portWait = none ∧ ∃ w, s.memFetch s.pc = .done w ∧
      ((∃ x, decode s.config w = .error x ∧ s.phase = .illegal { s with pc := s.pc + 8 }) ∨
        ∃ i, decode s.config w = .ok i ∧ s.phase = .execute i { s with pc := s.pc + 8 })) := by
  unfold State.phase
  cases hr : s.running with
  | false => exact .inl ⟨rfl, rfl⟩
  | true =>
    right
    cases hw : s.portWait with
    | some rd => exact .inl ⟨rfl, rd, rfl, rfl⟩
    | none =>
      right
      rcases s.fetch_cases with ⟨w, h1, h2⟩ | ⟨e, h1, h2, h3⟩
      · right
        refine ⟨rfl, rfl, w, h1, ?_⟩
        simp only [h2]
        cases hd : decode s.config w with
        | error x => exact .inl ⟨x, rfl, by cases s; cases hr; cases hw; rfl⟩
        | ok i => exact .inr ⟨i, rfl, by cases s; cases hr; cases hw; rfl⟩
      · exact .inl ⟨rfl, rfl, e, h1, by simp only [h2], h3⟩

end Sys2Proof.Machine
end

