-- ==== Sys2Proof/Tests/Slice0.lean ====
section
/-! SUPPORT. Tests of the model: the vectors `V<n>` and `H<n>` of 95_test_vectors.md (their words and results, not the
model's), and a smoke test of each well-formedness check. -/

namespace Sys2Proof.Tests

open Sys2Proof.Machine

/-- A state with these registers set. -/
def regs (rs : List (Reg × Word)) (s : State) : State := rs.foldl (fun t p => t.setReg p.1 p.2) s

/-- A state with these words in memory. -/
def words (ws : List (Nat × Word)) (s : State) : State := ws.foldl (fun t p => t.poke p.1 (bytesOfWord 8 p.2)) s

/-- A state with this `pc` and these condition flags Z, C, N, V. -/
def leaves (s : State) (pc : Word) (z c n v : Nat) : State :=
  { s with pc := pc, flags := ⟨z == 1, c == 1, n == 1, v == 1, false⟩ }

/-- The action goes on, and what it answers has a property. -/
def answers {α : Type} (o : Host.Outcome α Fault Refusal) (p : α → Bool) : Bool :=
  match o with
  | .next t => p t
  | .fault _ => false
  | .refused _ => false

theorem answers_spec {α : Type} {o : Host.Outcome α Fault Refusal} {p : α → Bool} (h : answers o p = true) :
    ∃ t, o = .next t ∧ p t = true := by
  cases o with
  | next t => exact ⟨t, rfl, h⟩
  | fault r => cases h
  | refused r => cases h

/-- One step from `s` with the word `w` at `pc` ends in the state `f` makes of that start. -/
def ends (s : State) (w : Nat) (f : State → State) : Bool :=
  answers (step (s.withFetchWord 64 w)) fun t => t == f (s.withFetchWord 64 w)

/-- The same with nothing placed. -/
def fetchEnds (s : State) (f : State → State) : Bool :=
  answers (step { s with running := true }) fun t => t == f { s with running := true }

/-- The reset state, running. -/
def running : State := { State.reset with running := true }

/-- The machine right after construction with one parameter that is not the default. -/
def symmetric : State := State.construct { Config.defaults 0x800000 with movWriteBack := .symmetric }
def partialWriting : State := State.construct { Config.defaults 0x800000 with partialWrite := true }
def keepingCV : State := State.construct { Config.defaults 0x800000 with logicPreservesCV := true }
def executing : State := State.construct { Config.defaults 0x800000 with fetchChecksExecute := true }
def lax : State := State.construct { Config.defaults 0x800000 with strictDecode := false }
def entering : State := State.construct { Config.defaults 0x800000 with interruptEntry := true }

/-- A segment that can only be read. -/
def readOnly : Segment := { name := "ROM", base := 0x300000, size := 0x100000, perms := ⟨true, false, false⟩ }

/-- A state whose step holds on port 0. -/
def held : State := { running with portWait := some 3 }

/-! ## Well-formedness refuses what it should -/

theorem test_memory_size_too_small : (Config.defaults 0xFFFFF).wf = false := by decide
theorem test_memory_size_too_large : (Config.defaults (2 ^ 64)).wf = false := by decide
theorem test_opcode_map_not_injective :
    ({ Config.defaults 0x800000 with opcodeMap := (Mnemonic.all.map fun m => (m, 0)) } : Config).wf = false := by decide
theorem test_opcode_map_mnemonic_missing :
    ({ Config.defaults 0x800000 with opcodeMap := defaultOpcodeMap.tail } : Config).wf = false := by decide
theorem test_opcode_map_mnemonic_twice :
    ({ Config.defaults 0x800000 with opcodeMap := (.nop, 0xFF) :: defaultOpcodeMap } : Config).wf = false := by decide
theorem test_default_config_wf : (Config.defaults 0x800000).wf = true := by decide
theorem test_undefined_mode_strict : (Instr.mov 0 (.undefinedMode 4)).wf true = false := by decide
theorem test_undefined_mode_defined : (Instr.mov 0 (.undefinedMode 3)).wf false = false := by decide

/-! ## Every constructor's decoding, on a word of the vectors -/

theorem test_decode_nop : decodeTableWord 64 0x0035000000000009 = some .nop := by decide
theorem test_decode_mov : decodeTableWord 64 0x0103700000000000 = some (.mov 3 (.register 7)) := by decide
theorem test_decode_load : decodeTableWord 64 0x0222000000100000 = some (.load 2 (.memory 0x100000)) := by decide
theorem test_decode_store : decodeTableWord 64 0x0304100000000000 = some (.store (.register 4) 1) := by decide
theorem test_decode_push : decodeTableWord 64 0x0410000000000007 = some (.push (.immediate 7)) := by decide
theorem test_decode_pop : decodeTableWord 64 0x0502000000000000 = some (.pop 2) := by decide
theorem test_decode_add : decodeTableWord 64 0x1000100000000000 = some (.add 0 (.register 1)) := by decide
theorem test_decode_sub : decodeTableWord 64 0x1110000000000002 = some (.sub 0 (.immediate 2)) := by decide
theorem test_decode_mul : decodeTableWord 64 0x1200100000000000 = some (.mul 0 (.register 1)) := by decide
theorem test_decode_div : decodeTableWord 64 0x1310000000000002 = some (.div 0 (.immediate 2)) := by decide
theorem test_decode_mod : decodeTableWord 64 0x1400100000000000 = some (.mod 0 (.register 1)) := by decide
theorem test_decode_inc : decodeTableWord 64 0x1505000000000000 = some (.inc 5) := by decide
theorem test_decode_dec : decodeTableWord 64 0x1605000000000000 = some (.dec 5) := by decide
theorem test_decode_cmp : decodeTableWord 64 0x171000000000000B = some (.cmp 0 (.immediate 11)) := by decide
theorem test_decode_swap : decodeTableWord 64 0x1800100000000000 = some (.swap 0 1) := by decide
theorem test_decode_and : decodeTableWord 64 0x20100000000000FF = some (.and 0 (.immediate 0xFF)) := by decide
theorem test_decode_or : decodeTableWord 64 0x2100100000000000 = some (.or 0 (.register 1)) := by decide
theorem test_decode_xor : decodeTableWord 64 0x22100000FFFFFFFF = some (.xor 0 (.immediate 0xFFFFFFFF)) := by decide
theorem test_decode_not : decodeTableWord 64 0x2300000000000000 = some (.not 0) := by decide
theorem test_decode_shl : decodeTableWord 64 0x241000000000003F = some (.shl 0 (.immediate 63)) := by decide
theorem test_decode_shr : decodeTableWord 64 0x2510000000000004 = some (.shr 0 (.immediate 4)) := by decide
theorem test_decode_jmp : decodeTableWord 64 0x3030300000000000 = some (.jmp (.registerIndirect 3)) := by decide
theorem test_decode_jz : decodeTableWord 64 0x3120000000300000 = some (.jz (.memory 0x300000)) := by decide
theorem test_decode_jnz : decodeTableWord 64 0x3210000000000040 = some (.jnz (.immediate 0x40)) := by decide
theorem test_decode_jc : decodeTableWord 64 0x3310000000000040 = some (.jc (.immediate 0x40)) := by decide
theorem test_decode_jnc : decodeTableWord 64 0x3410000000000040 = some (.jnc (.immediate 0x40)) := by decide
theorem test_decode_jl : decodeTableWord 64 0x3510000000000040 = some (.jl (.immediate 0x40)) := by decide
theorem test_decode_jle : decodeTableWord 64 0x3610000000000040 = some (.jle (.immediate 0x40)) := by decide
theorem test_decode_jg : decodeTableWord 64 0x3710000000000040 = some (.jg (.immediate 0x40)) := by decide
theorem test_decode_jge : decodeTableWord 64 0x3810000000000040 = some (.jge (.immediate 0x40)) := by decide
theorem test_decode_loop : decodeTableWord 64 0x3911000000000010 = some (.loop 1 (.immediate 0x10)) := by decide
theorem test_decode_call : decodeTableWord 64 0x3A00200000000000 = some (.call (.register 2)) := by decide
theorem test_decode_ret : decodeTableWord 64 0x3B00000000000000 = some .ret := by decide
theorem test_decode_hlt : decodeTableWord 64 0x4000000000000000 = some .hlt := by decide
theorem test_decode_print : decodeTableWord 64 0x4102000000000000 = some (.print (.register 2)) := by decide
theorem test_decode_inPort : decodeTableWord 64 0x4210000000000005 = some (.inPort 0 (.immediate 5)) := by decide
theorem test_decode_outPort : decodeTableWord 64 0x4310000000000007 = some (.outPort 0 (.immediate 7)) := by decide

theorem test_decode_unmapped_opcode : decodeTableWord 64 0x0600000000000000 = none := by decide
theorem test_decode_reserved_mode : decodeTableWord 64 0x0140000000000001 = none := by decide
theorem test_decode_nonzero_rsvd : decodeTableWord 64 0x0110000100000001 = none := by decide
theorem test_decode_short : decodeBytes (Config.defaults 0x800000) [0x2A, 0, 0, 0, 0, 0, 0x10] = .error .truncated := by decide
/-- R73: without STRICT_DECODE the mode and the reserved field are not checked at decode. -/
theorem test_decode_lax :
    decode { Config.defaults 0x800000 with strictDecode := false } 0x0140000100000001 =
      .ok (.mov 0 (.undefinedMode 4)) := by decide

/-! ## Vectors -/

theorem test_V2_mov :
    ends State.reset 0x01100000FFFFFFFF
      (fun s => regs [(0, 0xFFFFFFFF)] (leaves s 0x8 0 0 0 0)) = true := by decide
theorem test_V6_mov :
    ends (words [(0x200008, 0x4D)] (regs [(2, 0x200008)] State.reset)) 0x0131200000000000
      (fun s => regs [(1, 0x4D)] (leaves s 0x8 0 0 0 0)) = true := by decide
theorem test_V13_load :
    ends (words [(0x100000, 0x100010), (0x100010, 0x63)] State.reset) 0x0222000000100000
      (fun s => regs [(2, 0x63)] (leaves s 0x8 0 0 0 0)) = true := by decide
theorem test_V14_load :
    ends State.reset 0x0212000000300000
      (fun s => (leaves s 0x8 0 0 0 0).raise (.accessViolation .read 0x300000)) = true := by decide
theorem test_V16_store :
    ends (regs [(1, 0xAB), (4, 0x200003)] State.reset) 0x0304100000000000
      (fun s => words [(0x200000, 0xAB000000)] (leaves s 0x8 0 0 0 0)) = true := by decide
theorem test_V17_store :
    ends (regs [(1, 0xFFFFFFFFFFFFFFFF)] State.reset) 0x03101000002FFFFC
      (fun s => (leaves s 0x8 0 0 0 0).raise (.accessViolation .write 0x300000)) = true := by decide
theorem test_V20_push :
    ends (regs [(0, 0x34)] State.reset) 0x0400000000000000
      (fun s => { (words [(0x7FFFE8, 0x34)] (leaves s 0x8 0 0 0 0)) with sp := 0x7FFFE8 }) = true := by decide
theorem test_V23_push :
    ends { (regs [(0, 0x1)] State.reset) with sp := 0x4 } 0x0400000000000000
      (fun s => (leaves s 0x8 0 0 0 0).raise (.badAddress 0xFFFFFFFFFFFFFFFC)) = true := by decide
theorem test_V24_pop :
    ends { (words [(0x7FFFE8, 0x34)] State.reset) with sp := 0x7FFFE8 } 0x0502000000000000
      (fun s => { (regs [(2, 0x34)] (leaves s 0x8 0 0 0 0)) with sp := 0x7FFFF0 }) = true := by decide
theorem test_V26_pop :
    ends { State.reset with sp := 0x7FFFFC } 0x0502000000000000
      (fun s => (leaves s 0x8 0 0 0 0).raise (.badAddress 0x7FFFFC)) = true := by decide
theorem test_V27_add :
    ends (regs [(0, 0x2A), (1, 0xA)] State.reset) 0x1000100000000000
      (fun s => regs [(0, 0x34)] (leaves s 0x8 0 0 0 0)) = true := by decide
theorem test_V28_add :
    ends (regs [(0, 0xFFFFFFFFFFFFFFFF)] State.reset) 0x1010000000000001
      (fun s => regs [(0, 0x0)] (leaves s 0x8 1 1 0 0)) = true := by decide
theorem test_V31_sub :
    ends (regs [(0, 0x1)] State.reset) 0x1110000000000002
      (fun s => regs [(0, 0xFFFFFFFFFFFFFFFF)] (leaves s 0x8 0 1 1 0)) = true := by decide
theorem test_V33_sub :
    ends (regs [(0, 0x5)] (leaves State.reset 0 0 1 0 0)) 0x1110000000000000
      (fun s => leaves s 0x8 0 0 0 0) = true := by decide
theorem test_V35_mul :
    ends (regs [(0, 0x100000000), (1, 0x100000000)] State.reset) 0x1200100000000000
      (fun s => regs [(0, 0x0)] (leaves s 0x8 1 0 0 1)) = true := by decide
theorem test_V38_mul :
    ends (regs [(0, 0xFFFFFFFF)] State.reset) 0x1200000000000000
      (fun s => regs [(0, 0xFFFFFFFE00000001)] (leaves s 0x8 0 0 1 0)) = true := by decide
theorem test_V40_div :
    ends (regs [(0, 0xFFFFFFFFFFFFFFFF), (1, 0x8000000000000000)] State.reset) 0x1300100000000000
      (fun s => regs [(0, 0x1)] (leaves s 0x8 0 0 0 0)) = true := by decide
theorem test_V41_div :
    ends (regs [(0, 0x5)] (leaves State.reset 0 0 1 1 0)) 0x1300100000000000
      (fun s => (leaves s 0x8 0 1 1 0).raise (.divisionByZero 0x0)) = true := by decide
theorem test_V45_mod :
    ends (regs [(0, 0xFFFFFFFFFFFFFFFF), (1, 0x8000000000000001)] State.reset) 0x1400100000000000
      (fun s => regs [(0, 0x7FFFFFFFFFFFFFFE)] (leaves s 0x8 0 0 0 0)) = true := by decide
theorem test_V46_mod :
    ends (regs [(0, 0x9)] State.reset) 0x1410000000000000
      (fun s => (leaves s 0x8 0 0 0 0).raise (.divisionByZero 0x0)) = true := by decide
theorem test_V48_inc :
    ends (regs [(5, 0xFFFFFFFFFFFFFFFF)] State.reset) 0x1505000000000000
      (fun s => regs [(5, 0x0)] (leaves s 0x8 1 1 0 0)) = true := by decide
theorem test_V50_dec :
    ends (regs [(5, 0x0)] State.reset) 0x1605000000000000
      (fun s => regs [(5, 0xFFFFFFFFFFFFFFFF)] (leaves s 0x8 0 1 1 0)) = true := by decide
theorem test_V52_cmp :
    ends (regs [(0, 0xA)] State.reset) 0x171000000000000B
      (fun s => leaves s 0x8 0 1 1 0) = true := by decide
theorem test_V53_cmp :
    ends (regs [(0, 0xFFFFFFFFFFFFFFFF)] State.reset) 0x1710000000000001
      (fun s => leaves s 0x8 0 0 1 0) = true := by decide
theorem test_V54_swap :
    ends (regs [(0, 0x0), (1, 0x8000000000000000)] (leaves State.reset 0 0 1 0 0)) 0x1800100000000000
      (fun s => regs [(0, 0x8000000000000000), (1, 0x0)] (leaves s 0x8 0 0 1 0)) = true := by decide
theorem test_V55_swap :
    ends (regs [(2, 0x0)] State.reset) 0x1802200000000000
      (fun s => leaves s 0x8 1 0 0 0) = true := by decide
theorem test_V57_and :
    ends (regs [(0, 0xFFFFFFFFFFFFFF00)] (leaves State.reset 0 0 1 0 1)) 0x20100000000000FF
      (fun s => regs [(0, 0x0)] (leaves s 0x8 1 0 0 0)) = true := by decide
theorem test_V59_or :
    ends (regs [(0, 0x8000000000000000)] State.reset) 0x2100100000000000
      (fun s => leaves s 0x8 0 0 1 0) = true := by decide
theorem test_V60_xor :
    ends (regs [(0, 0x5A)] State.reset) 0x2200000000000000
      (fun s => regs [(0, 0x0)] (leaves s 0x8 1 0 0 0)) = true := by decide
theorem test_V61_xor :
    ends (regs [(0, 0xFFFFFFFFFFFFFFFF)] State.reset) 0x22100000FFFFFFFF
      (fun s => regs [(0, 0xFFFFFFFF00000000)] (leaves s 0x8 0 0 1 0)) = true := by decide
theorem test_V62_not :
    ends State.reset 0x2300000000000000
      (fun s => regs [(0, 0xFFFFFFFFFFFFFFFF)] (leaves s 0x8 0 0 1 0)) = true := by decide
theorem test_V65_shl :
    ends (regs [(0, 0x3)] State.reset) 0x241000000000003F
      (fun s => regs [(0, 0x8000000000000000)] (leaves s 0x8 0 1 1 0)) = true := by decide
theorem test_V66_shl :
    ends (regs [(0, 0x8000000000000001)] (leaves State.reset 0 0 1 0 0)) 0x2410000000000040
      (fun s => leaves s 0x8 0 0 1 0) = true := by decide
theorem test_V70_shr :
    ends (regs [(0, 0x1)] State.reset) 0x2510000000000001
      (fun s => regs [(0, 0x0)] (leaves s 0x8 1 1 0 0)) = true := by decide
theorem test_V72_shr :
    ends (regs [(0, 0xC000000000000000)] State.reset) 0x251000000000003F
      (fun s => regs [(0, 0x1)] (leaves s 0x8 0 1 0 0)) = true := by decide
theorem test_V74_jmp :
    ends (regs [(3, 0x1234567)] State.reset) 0x3000300000000000
      (fun s => leaves s 0x1234567 0 0 0 0) = true := by decide
theorem test_V76_jmp :
    ends (regs [(3, 0x300000)] State.reset) 0x3030300000000000
      (fun s => (leaves s 0x8 0 0 0 0).raise (.accessViolation .read 0x300000)) = true := by decide
theorem test_V77_jz :
    ends (leaves State.reset 0 1 0 0 0) 0x3110000000000040
      (fun s => leaves s 0x40 1 0 0 0) = true := by decide
theorem test_V79_jz :
    ends State.reset 0x3120000000300000
      (fun s => (leaves s 0x8 0 0 0 0).raise (.accessViolation .read 0x300000)) = true := by decide
theorem test_V80_jnz : ends State.reset 0x3210000000000040 (fun s => leaves s 0x40 0 0 0 0) = true := by decide
theorem test_V81_jc :
    ends (leaves State.reset 0 0 1 0 0) 0x3310000000000040
      (fun s => leaves s 0x40 0 1 0 0) = true := by decide
theorem test_V82_jnc :
    ends (leaves State.reset 0 0 1 0 0) 0x3410000000000040
      (fun s => leaves s 0x8 0 1 0 0) = true := by decide
theorem test_V83_jl :
    ends (leaves State.reset 0 0 0 1 0) 0x3510000000000040
      (fun s => leaves s 0x40 0 0 1 0) = true := by decide
theorem test_V84_jl :
    ends (leaves State.reset 0 0 0 1 1) 0x3510000000000040
      (fun s => leaves s 0x8 0 0 1 1) = true := by decide
theorem test_V85_jle :
    ends (leaves State.reset 0 1 0 0 0) 0x3610000000000040
      (fun s => leaves s 0x40 1 0 0 0) = true := by decide
theorem test_V86_jle : ends State.reset 0x3610000000000040 (fun s => leaves s 0x8 0 0 0 0) = true := by decide
theorem test_V88_jg :
    ends (leaves State.reset 0 0 0 1 1) 0x3710000000000040
      (fun s => leaves s 0x40 0 0 1 1) = true := by decide
theorem test_V89_jg :
    ends (leaves State.reset 0 0 0 0 1) 0x3710000000000040
      (fun s => leaves s 0x8 0 0 0 1) = true := by decide
theorem test_V90_jge :
    ends (leaves State.reset 0 0 0 1 1) 0x3810000000000040
      (fun s => leaves s 0x40 0 0 1 1) = true := by decide
theorem test_V91_jge :
    ends (leaves State.reset 0 0 0 1 0) 0x3810000000000040
      (fun s => leaves s 0x8 0 0 1 0) = true := by decide
theorem test_V94_loop :
    ends (leaves State.reset 0x18 0 0 0 0) 0x3911000000000010
      (fun s => regs [(1, 0xFFFFFFFFFFFFFFFF)] (leaves s 0x10 0 0 0 0)) = true := by decide
theorem test_V96_loop :
    ends (regs [(1, 0x5)] State.reset) 0x3921000000300000
      (fun s => (leaves s 0x8 0 0 0 0).raise (.accessViolation .read 0x300000)) = true := by decide
theorem test_V97_call :
    ends (leaves State.reset 0x8 0 0 0 0) 0x3A10000000000018
      (fun s => { (words [(0x7FFFE8, 0x10)] (leaves s 0x18 0 0 0 0)) with sp := 0x7FFFE8 }) = true := by decide
theorem test_V98_call :
    ends { (regs [(2, 0x40)] (leaves State.reset 0x8 0 0 0 0)) with sp := 0x700000 } 0x3A00200000000000
      (fun s => (leaves s 0x10 0 0 0 0).raise (.accessViolation .write 0x6FFFF8)) = true := by decide
theorem test_V99_ret :
    ends { (words [(0x7FFFE8, 0x10)] (leaves State.reset 0x20 0 0 0 0)) with sp := 0x7FFFE8 } 0x3B00000000000000
      (fun s => { (leaves s 0x10 0 0 0 0) with sp := 0x7FFFF0 }) = true := by decide
theorem test_V100_ret :
    ends { (leaves State.reset 0x20 0 0 0 0) with sp := 0x6FFFF8 } 0x3B00000000000000
      (fun s => (leaves s 0x28 0 0 0 0).raise (.accessViolation .read 0x6FFFF8)) = true := by decide
theorem test_V101_nop : ends State.reset 0x0000000000000000 (fun s => leaves s 0x8 0 0 0 0) = true := by decide
theorem test_V102_nop : ends State.reset 0x0035000000000009 (fun s => leaves s 0x8 0 0 0 0) = true := by decide
theorem test_V103_hlt :
    ends (leaves State.reset 0x28 0 0 0 0) 0x4000000000000000
      (fun s => { (leaves s 0x30 0 0 0 0) with running := false }) = true := by decide
theorem test_V104_print :
    ends (regs [(2, 0x34)] State.reset) 0x4102000000000000
      (fun s => { (leaves s 0x8 0 0 0 0) with trace := [.print 0x34] }) = true := by decide
theorem test_V106_print :
    ends State.reset 0x4120000000300000
      (fun s => (leaves s 0x8 0 0 0 0).raise (.accessViolation .read 0x300000)) = true := by decide
theorem test_V107_in :
    ends (regs [(0, 0x9)] State.reset) 0x4210000000000005
      (fun s => regs [(0, 0x0)] (leaves s 0x8 0 0 0 0)) = true := by decide
theorem test_V108_in :
    ends { State.reset with port0Input := [1234] } 0x4210000000000000
      (fun s => { (regs [(0, 0x4D2)] (leaves s 0x8 0 0 0 0)) with trace := [.portRead 0 0x4D2], port0Input := [] }) = true := by decide
theorem test_V111_out :
    ends (regs [(0, 0x41)] State.reset) 0x4310000000000000
      (fun s => { (leaves s 0x8 0 0 0 0) with trace := [.portWrite 0 0x41] }) = true := by decide
theorem test_V112_out :
    ends (regs [(0, 0xFF)] State.reset) 0x4310000000000007
      (fun s => leaves s 0x8 0 0 0 0) = true := by decide
theorem test_V113_opcode :
    ends State.reset 0xFF00000000000000
      (fun s => (leaves s 0x8 0 0 0 0).raise (.illegalOpcode 0x0)) = true := by decide
theorem test_V114_opcode_gap :
    ends State.reset 0x0600000000000000
      (fun s => (leaves s 0x8 0 0 0 0).raise (.illegalOpcode 0x0)) = true := by decide
theorem test_V115_mode :
    ends State.reset 0x0140000000000001
      (fun s => (leaves s 0x8 0 0 0 0).raise (.illegalOpcode 0x0)) = true := by decide
theorem test_V116_rsvd :
    ends State.reset 0x0110000100000001
      (fun s => (leaves s 0x8 0 0 0 0).raise (.illegalOpcode 0x0)) = true := by decide
theorem test_V117_fetch_denied :
    fetchEnds (leaves State.reset 0x300000 0 0 0 0)
      (fun s => (leaves s 0x300000 0 0 0 0).raise (.accessViolation .read 0x300000)) = true := by decide
theorem test_V118_fetch_outside :
    fetchEnds (leaves State.reset 0x7FFFFC 0 0 0 0)
      (fun s => (leaves s 0x7FFFFC 0 0 0 0).raise (.badAddress 0x7FFFFC)) = true := by decide
theorem test_V119_fetch_partly_denied :
    fetchEnds (leaves State.reset 0x2FFFFC 0 0 0 0)
      (fun s => (leaves s 0x2FFFFC 0 0 0 0).raise (.accessViolation .read 0x300000)) = true := by decide

/-! ## Parameters, reset and host -/

/-- MOV_WRITEBACK = SYMMETRIC (R81): a memory source is written back where it lies, a register source to `x[reg1]`. -/
theorem test_mov_symmetric :
    ends (words [(0x100000, 0x4D)] symmetric) 0x0121000000100000 (fun s => leaves s 8 0 0 0 0) = true ∧
      ends (words [(0x100000, 0x4D)] (regs [(1, 0x200000), (2, 0x100000)] symmetric)) 0x0131200000000000
        (fun s => words [(0x200000, 0x4D)] (leaves s 8 0 0 0 0)) = true := by decide
/-- V17 under PARTIAL_WRITE (R48): the four bytes below the denied one are written. -/
theorem test_store_partial :
    ends (regs [(1, 0x8877665544332211)] partialWriting) 0x03101000002FFFFC
      (fun s => ((leaves s 8 0 0 0 0).poke 0x2FFFFC [0x11, 0x22, 0x33, 0x44]).raise (.accessViolation .write 0x300000)) =
      true := by decide
/-- LOGIC_PRESERVES_CV (R32), V57. -/
theorem test_and_preserves_cv :
    ends (regs [(0, 0xFFFFFFFFFFFFFF00)] (leaves keepingCV 0 0 1 0 1)) 0x20100000000000FF
      (fun s => regs [(0, 0)] (leaves s 8 1 1 0 1)) = true := by decide
/-- V109: the value is a free 32-bit draw, zero-extended. -/
theorem test_V109_in :
    answers (step (State.reset.withFetchWord 64 0x4210000000000001))
      (fun t => decide (t.pc = 8) && decide (t.port1Draws = 1) && decide (t.trace.length = 1)) = true := by rfl
/-- The reset state of 95_test_vectors.md (H1). -/
theorem test_reset_H1 :
    State.reset.pc = 0 ∧ State.reset.sp = 0x7FFFF0 ∧ State.reset.running = false ∧ State.reset.err = ErrReg.clear ∧
      State.reset.segments = defaultSegments 0x800000 ∧ State.reset.regs = Vector.replicate 16 0 := by decide
theorem test_host_H3 : State.reset.setRegister 16 5 = State.reset := by decide
theorem test_host_H4 : (State.reset.setFlag 4 1).getFlag 4 = true := by decide
theorem test_host_H5 :
    answers (step (words [(0, 0x0110000000000001)] State.reset)) (fun t => t == words [(0, 0x0110000000000001)] State.reset) =
      true := by decide
theorem test_host_H9 : State.reset.loadProgram [] 0x40 = ({ State.reset with pc := 0x40 }, .ok) := by decide
/-- Invariant 1 of 95_test_vectors.md: a load that fails on its third word (D30), and one that is too large. -/
theorem test_load_program_fails :
    State.reset.loadProgram [1, 2, 3] 0x2FFFF0 =
        (words [(0x2FFFF0, 1), (0x2FFFF8, 2)] State.reset, .failed (.accessViolation .write 0x300000)) ∧
      State.reset.loadProgram [1] 0x7FFFF9 = (State.reset, .loadTooLarge) := by decide
/-- R138: the pushes, the vector and the flag I. -/
theorem test_interrupt_entry :
    (words [(0x18, 0x4000)] { leaves State.reset 0x28 1 0 1 0 with flags := ⟨true, false, true, false, true⟩ }).interruptEntry 3 =
      { words [(0x18, 0x4000), (0x7FFFE8, 0x28), (0x7FFFE0, 0x15)] (leaves State.reset 0x4000 1 0 1 0) with sp := 0x7FFFE0 } := by
  decide

/-! ## Witnesses: for each statement with hypotheses, operands and a state that meet them -/

theorem acc {s : State} {k : Access} {a : Word} {n : Nat}
    (h : (decide (a.toNat + n ≤ s.config.memorySize) && (List.range n).all fun j => s.permitted k (a.toNat + j)) = true) :
    s.Accessible k a n := by
  simp only [Bool.and_eq_true, decide_eq_true_eq, List.all_eq_true, List.mem_range] at h
  exact h

theorem den {s : State} {k : Access} {a : Word} {n j : Nat}
    (h : (decide (a.toNat + n ≤ s.config.memorySize) && decide (j < n) && !s.permitted k (a.toNat + j) &&
      (List.range j).all fun i => s.permitted k (a.toNat + i)) = true) : s.DeniedAt k a n j := by
  simp only [Bool.and_eq_true, decide_eq_true_eq, List.all_eq_true, List.mem_range, Bool.not_eq_true'] at h
  exact ⟨h.1.1.1, h.1.1.2, h.1.2, h.2⟩

theorem witness_DecodeOfEncodeIsIdentity :
    (∀ i ∈ [Instr.outPort 15 (.registerIndirect 15), .swap 15 15, .store (.memory 0xFFFFFFFF) 15],
      (Config.defaults 0x800000).opcodeMapOk = true ∧ i.wf (Config.defaults 0x800000).strictDecode = true) ∧
      lax.config.opcodeMapOk = true ∧ (Instr.jmp (.undefinedMode 15)).wf lax.config.strictDecode = true := by decide
theorem witness_DecodedInstructionIsWellFormed :
    (Config.defaults 0x800000).opcodeMapOk = true ∧
      decode (Config.defaults 0x800000) 0x0131200000000000 = .ok (.mov 1 (.registerIndirect 2)) := by decide
theorem witness_WordIsIllegalExactlyByRule :
    decode (Config.defaults 0x800000) 0x0600000000000000 = .error (.unknownOpcode 6) ∧
      decode (Config.defaults 0x800000) 0x01F0000000000000 = .error (.reservedMode 15) ∧
      decode (Config.defaults 0x800000) 0x0100080000000000 = .error (.nonzeroReserved 0x800) := by decide
theorem witness_EveryOpcodeRowDecodes :
    opcodeRows.length = 37 ∧ (3 < 4 ∧ 15 < 16 ∧ 2 ^ 32 - 1 < 2 ^ 32) ∧
      opcodeRows.map (fun row => row.1) = defaultOpcodeMap.map (fun p => p.2.toNat) := by decide
theorem witness_InstructionWordLiesLittleEndian : (words [(0x10, 0x4D)] State.reset).mem.wf = true := by decide
theorem witness_PermissionIsOfFirstCoveringSegment :
    State.reset.permitted .execute 0xFFFFF = true ∧ State.reset.permitted .execute 0x100000 = false := by decide

/-- The last word inside memory; one byte further; a word whose upper half is in no segment. -/
theorem witness_CheckedReadFollowsRule :
    State.reset.Accessible .read 0x7FFFF8 8 ∧ State.reset.Accessible .read 0x7FFFFF 1 ∧
      State.reset.AccessFails .read 0x7FFFF9 8 (.badAddress 0x7FFFF9) ∧
      State.reset.AccessFails .read 0x2FFFFC 8 (.accessViolation .read 0x300000) :=
  ⟨acc (by decide), acc (by decide), .inl ⟨by decide, rfl⟩, .inr ⟨4, den (by decide), rfl⟩⟩
theorem witness_CheckedWriteFollowsRule :
    State.reset.mem.wf = true ∧ State.reset.Accessible .write 0x7FFFF8 8 ∧
      State.reset.config.memorySize < (0x7FFFF9 : Word).toNat + 8 ∧
      (State.reset.DeniedAt .write 0x2FFFFC 8 4 ∧ State.reset.config.partialWrite = false) ∧
      partialWriting.DeniedAt .write 0x2FFFFC 8 4 ∧ partialWriting.mem.wf = true ∧
      partialWriting.config.partialWrite = true :=
  ⟨rfl, acc (by decide), by decide, ⟨den (by decide), rfl⟩, den (by decide), rfl, rfl⟩
theorem witness_FetchReadFollowsRule :
    State.reset.AccessFails .read 0x2FFFFC 8 (.accessViolation .read 0x300000) ∧
      (State.reset.Accessible .read 0x2FFFF8 8 ∧ State.reset.config.fetchChecksExecute = false) ∧
      executing.config.fetchChecksExecute = true ∧
      (executing.Accessible .read 0xFFFF8 8 ∧ executing.Accessible .execute 0xFFFF8 8) ∧
      executing.Accessible .read 0xFFFF9 8 ∧ executing.DeniedAt .execute 0xFFFF9 8 7 :=
  ⟨.inr ⟨4, den (by decide), rfl⟩, ⟨acc (by decide), rfl⟩, rfl, ⟨acc (by decide), acc (by decide)⟩,
    acc (by decide), den (by decide)⟩
theorem witness_NarrowReadAfterWideWrite :
    State.reset.config.memorySizeOk = true ∧ State.reset.mem.wf = true ∧ 7 + 1 ≤ 8 ∧
      State.reset.Accessible .write 0x7FFFF8 8 ∧ State.reset.Accessible .read (0x7FFFF8 + BitVec.ofNat 64 7) 1 :=
  ⟨by decide, rfl, by decide, acc (by decide), acc (by decide)⟩

/-- Operands that resolve, in each mode, and ones that fail. -/
theorem witness_OperandResolutionFollowsRule :
    (State.reset.Resolves (.register 15) ∧ State.reset.Resolves (.immediate 0xFFFFFFFF) ∧
        State.reset.Resolves (.memory 0x7FFFF8) ∧ (regs [(2, 0x200008)] State.reset).Resolves (.registerIndirect 2)) ∧
      State.reset.OperandFails (.accessViolation .read 0x300000) (.memory 0x300000) ∧
      (regs [(2, 0xFFFFFFFFFFFFFFFF)] State.reset).OperandFails (.badAddress 0xFFFFFFFFFFFFFFFF) (.registerIndirect 2) ∧
      { lax with pc := 8 }.OperandFails (.illegalOpcode 0) (.undefinedMode 4) :=
  ⟨⟨trivial, trivial, acc (by decide), acc (by decide)⟩, .inr ⟨0, den (by decide), rfl⟩, .inl ⟨by decide, rfl⟩, rfl⟩
theorem witness_FlagDerivatorFollowsRule :
    keepingCV.config.logicPreservesCV = true ∧ State.reset.config.logicPreservesCV = false := by decide

theorem witness_MovCompletes :
    (State.reset.Resolves (.memory 0x100000) ∧ State.reset.config.movWriteBack = .reg1) ∧
      symmetric.config.movWriteBack = .symmetric ∧
      (symmetric.Resolves (.immediate 42) ∧ symmetric.operandAddr (.immediate 42) = none) ∧
      (symmetric.Resolves (.memory 0x100000) ∧ symmetric.mem.wf = true ∧
        symmetric.Accessible .write ((0x100000 : BitVec 32).setWidth 64) 8) ∧
      (symmetric.Resolves (.registerIndirect 2) ∧ symmetric.Accessible .write symmetric.regs[(1 : Reg).val] 8) :=
  ⟨⟨acc (by decide), rfl⟩, rfl, ⟨trivial, rfl⟩, ⟨acc (by decide), rfl, acc (by decide)⟩, acc (by decide), acc (by decide)⟩
theorem witness_LoadCompletes :
    State.reset.Resolves (.immediate 0x7FFFF8) ∧ State.reset.Accessible .read (State.reset.operandValue (.immediate 0x7FFFF8)) 8 :=
  ⟨trivial, acc (by decide)⟩
theorem witness_StoreCompletes :
    State.reset.mem.wf = true ∧ State.reset.Resolves (.immediate 0x2FFFF8) ∧
      State.reset.Accessible .write (State.reset.operandValue (.immediate 0x2FFFF8)) 8 :=
  ⟨rfl, trivial, acc (by decide)⟩
theorem witness_PushCompletes :
    State.reset.mem.wf = true ∧ State.reset.Resolves (.immediate 7) ∧ State.reset.Accessible .write (State.reset.sp - 8) 8 :=
  ⟨rfl, trivial, acc (by decide)⟩
theorem witness_PopCompletes : State.reset.Accessible .read State.reset.sp 8 := acc (by decide)

/-- AddCompletes, SubCompletes, MulCompletes, CmpCompletesWithFlagsOfSub, LogicCompletes, JmpCompletes,
ConditionalBranchesComplete, LoopCompletes, PrintCompletes: each needs an operand that resolves. -/
theorem witness_Resolves : State.reset.Resolves (.register 1) ∧ State.reset.Resolves (.memory 0x200003) :=
  ⟨trivial, acc (by decide)⟩
theorem witness_DivModComplete :
    State.reset.Resolves (.immediate 1) ∧ (State.reset.operandValue (.immediate 1)).toNat ≠ 0 := ⟨trivial, by decide⟩
theorem witness_DivisionByZeroIsTaken :
    State.reset.Resolves (.register 3) ∧ (State.reset.operandValue (.register 3)).toNat = 0 := ⟨trivial, by decide⟩
theorem witness_ShiftsComplete :
    State.reset.Resolves (.immediate 64) ∧ 0 = (State.reset.operandValue (.immediate 64)).toNat % 64 ∧
      State.reset.Resolves (.immediate 63) ∧ 63 = (State.reset.operandValue (.immediate 63)).toNat % 64 :=
  ⟨trivial, by decide, trivial, by decide⟩
theorem witness_BranchesAfterCompare :
    State.reset.Resolves (.immediate 11) ∧
      ∃ t, exec (.cmp 0 (.immediate 11)) State.reset = .next t ∧ t.Resolves (.immediate 0x40) :=
  ⟨trivial, _, rfl, trivial⟩
theorem witness_CallCompletes :
    State.reset.mem.wf = true ∧ State.reset.Resolves (.immediate 0x18) ∧
      State.reset.Accessible .write (State.reset.sp - 8) 8 := ⟨rfl, trivial, acc (by decide)⟩
theorem witness_RetCompletes : { State.reset with sp := 0x7FFFF8 }.Accessible .read 0x7FFFF8 8 := acc (by decide)
theorem witness_StackRoundTripsRestore :
    State.reset.config.memorySizeOk = true ∧ State.reset.mem.wf = true ∧
      State.reset.Accessible .write (State.reset.sp - 8) 8 ∧ State.reset.Accessible .read (State.reset.sp - 8) 8 ∧
      State.reset.Resolves (.immediate 0x18) := ⟨by decide, rfl, acc (by decide), acc (by decide), trivial⟩

theorem witness_InCompletes :
    ({ State.reset with port0Input := [1234] }.Resolves (.immediate 0) ∧
        ({ State.reset with port0Input := [1234] }.operandValue (.immediate 0)).toNat = 0) ∧
      (State.reset.operandValue (.immediate 1)).toNat = 1 ∧ 1 < (State.reset.operandValue (.immediate 2)).toNat :=
  ⟨⟨trivial, by decide⟩, by decide, by decide⟩
theorem witness_InFromPortZeroHolds :
    (State.reset.Resolves (.immediate 0) ∧ (State.reset.operandValue (.immediate 0)).toNat = 0 ∧
        State.reset.port0Input = []) ∧
      (held.running = true ∧ held.portWait = some 3 ∧ held.port0Input = []) ∧
      { held with port0Input := [7] }.port0Input = 7 :: [] := ⟨⟨trivial, by decide, rfl⟩, ⟨rfl, rfl, rfl⟩, rfl⟩
theorem witness_OutCompletes :
    State.reset.Resolves (.immediate 0) ∧ (State.reset.operandValue (.immediate 0)).toNat = 0 ∧
      (State.reset.operandValue (.immediate 1)).toNat = 1 ∧ 1 < (State.reset.operandValue (.immediate 2)).toNat :=
  ⟨trivial, by decide, by decide, by decide⟩

theorem witness_OperandErrorIsTaken :
    (Instr.loop 1 (.memory 0x300000)).operand? = some (.memory 0x300000) ∧
      State.reset.OperandFails (.accessViolation .read 0x300000) (.memory 0x300000) :=
  ⟨rfl, .inr ⟨0, den (by decide), rfl⟩⟩
theorem witness_DataAccessErrorIsTaken :
    { State.reset with sp := 0x7FFFFC }.AccessFails .read 0x7FFFFC 8 (.badAddress 0x7FFFFC) ∧
      State.reset.Resolves (.immediate 0x300000) ∧
      State.reset.AccessFails .read (State.reset.operandValue (.immediate 0x300000)) 8 (.accessViolation .read 0x300000) ∧
      State.reset.config.partialWrite = false ∧
      State.reset.AccessFails .write (State.reset.operandValue (.immediate 0x300000)) 8 (.accessViolation .write 0x300000) ∧
      { State.reset with sp := 0x700000 }.AccessFails .write (0x700000 - 8) 8 (.accessViolation .write 0x6FFFF8) ∧
      symmetric.config.movWriteBack = .symmetric ∧
      ((symmetric.addSegment readOnly).Resolves (.memory 0x300000) ∧
        (symmetric.addSegment readOnly).AccessFails .write ((0x300000 : BitVec 32).setWidth 64) 8
          (.accessViolation .write 0x300000)) ∧
      ((regs [(1, 0x300000)] symmetric).Resolves (.registerIndirect 2) ∧
        (regs [(1, 0x300000)] symmetric).AccessFails .write 0x300000 8 (.accessViolation .write 0x300000)) :=
  ⟨.inl ⟨by decide, rfl⟩, trivial, .inr ⟨0, den (by decide), rfl⟩, rfl, .inr ⟨0, den (by decide), rfl⟩,
    .inr ⟨0, den (by decide), rfl⟩, rfl, ⟨acc (by decide), .inr ⟨0, den (by decide), rfl⟩⟩,
    acc (by decide), .inr ⟨0, den (by decide), rfl⟩⟩
/-- A failed fetch, an error after the fetch, and a partial write. -/
theorem witness_ErrorsArePrecise :
    ∀ s ∈ [{ running with pc := 0x300000 }, running.withFetchWord 64 0x0121000000300000,
        (regs [(1, 0x88)] partialWriting).withFetchWord 64 0x03101000002FFFFC],
      s.config.memorySizeOk = true ∧ s.mem.wf = true ∧ s.running = true ∧ s.err = ErrReg.clear ∧
        answers (step s) (fun t => decide (t.err ≠ ErrReg.clear)) = true := by decide

theorem witness_StepRunsDecodedInstruction :
    (State.reset.withFetchWord 64 0x011000000000002A).Fetches ∧
      decode (Config.defaults resetMemorySize) ((State.reset.withFetchWord 64 0x011000000000002A).word64 0) =
        .ok (.mov 0 (.immediate 42)) := ⟨⟨rfl, rfl, acc (by decide), fun h => absurd h (by decide)⟩, by decide⟩
theorem witness_StepFollowsRule :
    State.reset.running = false ∧ (running.running = true ∧ running.portWait = none) ∧
      { running with pc := 0x300000 }.memFetch 0x300000 =
        .raised (.accessViolation .read 0x300000) { running with pc := 0x300000 } ∧
      running.memFetch 0 = .done 0 ∧ decode running.config 0 = .ok .nop ∧
      decode running.config 0xFF00000000000000 = .error (.unknownOpcode 0xFF) := by decide
theorem witness_IllegalWordIsTaken :
    (State.reset.withFetchWord 64 0xFF00000000000000).Fetches ∧
      decode (Config.defaults resetMemorySize) ((State.reset.withFetchWord 64 0xFF00000000000000).word64 0) =
        .error (.unknownOpcode 0xFF) := ⟨⟨rfl, rfl, acc (by decide), fun h => absurd h (by decide)⟩, by decide⟩

/-- StepKeepsWhatOnlyHostChanges, StepKeepsTheInvariant, InterruptFlagIsNeverRead, ErrorRegisterIsNeverRead: a running
state with the invariant that steps. -/
theorem witness_Inv_and_step : running.Inv ∧ ∃ t, step running = .next t :=
  ⟨⟨by decide, by decide, by decide, by decide, by decide, by decide, by decide, by decide⟩,
    (answers_spec (p := fun _ => true) (by decide)).imp fun _ h => h.1⟩
theorem witness_ResetMeetsTheInvariant : (Config.defaults 0x100000).wf = true ∧ (Config.defaults (2 ^ 64 - 1)).wf = true := by
  decide
theorem witness_HostCommandsKeepTheInvariant :
    running.Inv ∧ running.command (.loadProgram [1, 2, 3] 0x2FFFF0) = .next (running.loadProgram [1, 2, 3] 0x2FFFF0) ∧
      ∃ p, running.command (.setFlag 4 1) = .next p := ⟨witness_Inv_and_step.1, rfl, _, rfl⟩
theorem witness_InterruptEntryFollowsRule :
    { State.reset with sp := 4 }.AccessFails .write (4 - 8) 8 (.badAddress 0xFFFFFFFFFFFFFFFC) ∧
      ({ State.reset with sp := 0x700008 }.Accessible .write (0x700008 - 8) 8 ∧
        { State.reset with sp := 0x700008 }.AccessFails .write (0x700008 - 16) 8 (.accessViolation .write 0x6FFFF8)) ∧
      (State.reset.Accessible .write (State.reset.sp - 8) 8 ∧ State.reset.Accessible .write (State.reset.sp - 16) 8 ∧
        State.reset.AccessFails .read (BitVec.ofNat 64 (8 * 0x60000)) 8 (.accessViolation .read 0x300000) ∧
        State.reset.Accessible .read (BitVec.ofNat 64 (8 * 255)) 8) ∧
      State.reset.portWait = none ∧ State.reset.config.interruptEntry = false ∧ entering.config.interruptEntry = true :=
  ⟨.inl ⟨by decide, rfl⟩, ⟨acc (by decide), .inr ⟨0, den (by decide), rfl⟩⟩,
    ⟨acc (by decide), acc (by decide), .inr ⟨0, den (by decide), rfl⟩, acc (by decide)⟩, rfl, rfl, rfl⟩
theorem witness_LoadedProgramReadsBack :
    State.reset.config.memorySizeOk = true ∧ State.reset.mem.wf = true ∧
      State.reset.config.memorySize < (0x7FFFF9 : Word).toNat + 8 * 1 ∧
      ((0x7FFFF0 : Word).toNat + 8 * 2 ≤ State.reset.config.memorySize ∧
        ∀ j, j < 8 * 2 → State.reset.permitted .write ((0x7FFFF0 : Word).toNat + j) = true) := by decide
theorem witness_HostAccessorsFollowRules :
    State.reset.portWait = none ∧ 15 < 16 ∧ 16 ≤ 16 ∧ 4 ≤ 4 ∧ 4 < 5 := by decide
theorem witness_RunEndsHalted :
    (∃ t : State, (words [(0, 0x4000000000000000)] State.reset).run 1 = .next t ∧ (t.ending == some .haltedClean) = true) ∧
      ∃ t : State, (words [(0, 0xFF00000000000000)] State.reset).run 1 = .next t ∧ decide (t.err.kind ≠ .none) = true :=
  ⟨answers_spec (p := fun t : State => t.ending == some .haltedClean) (by decide),
    answers_spec (p := fun t : State => decide (t.err.kind ≠ .none)) (by decide)⟩

end Sys2Proof.Tests
end

section
/-! The moves of the core, said once: what leaves everything but the core's own working state alone (`LocalChange`), what
executing an instruction may do beyond that (`Effect`), and what one step may do (`StepEffect`). What every step and every
host command keeps is derived from these. -/

namespace Sys2Proof.Machine

/-! ## Changes inside the core -/

/-- `t` differs from `s` at most in the general registers, `pc`, `sp`, the flags Z, C, N, V and the bytes of memory, and
memory stays canonical and inside its bounds. -/
structure State.LocalChange (s t : State) : Prop where
  config : t.config = s.config
  segments : t.segments = s.segments
  interrupt : t.flags.i = s.flags.i
  running : t.running = s.running
  err : t.err = s.err
  trace : t.trace = s.trace
  port0Input : t.port0Input = s.port0Input
  port1Draws : t.port1Draws = s.port1Draws
  portWait : t.portWait = s.portWait
  canonical : s.mem.wf = true → t.mem.wf = true
  inside : s.mem.within s.config.memorySize = true → t.mem.within s.config.memorySize = true

/-- Writing registers, `pc`, `sp` and flags other than I. -/
theorem State.LocalChange.compute (s : State) (regs : Vector Word 16) (pc sp : Word) (f : Flags)
    (hi : f.i = s.flags.i) : s.LocalChange { s with regs := regs, pc := pc, sp := sp, flags := f } :=
  ⟨rfl, rfl, hi, rfl, rfl, rfl, rfl, rfl, rfl, id, id⟩

theorem State.LocalChange.refl (s : State) : s.LocalChange s :=
  .compute s _ _ _ _ rfl

theorem State.LocalChange.trans {s t u : State} (h : s.LocalChange t) (g : t.LocalChange u) : s.LocalChange u where
  config := g.config.trans h.config
  segments := g.segments.trans h.segments
  interrupt := g.interrupt.trans h.interrupt
  running := g.running.trans h.running
  err := g.err.trans h.err
  trace := g.trace.trans h.trace
  port0Input := g.port0Input.trans h.port0Input
  port1Draws := g.port1Draws.trans h.port1Draws
  portWait := g.portWait.trans h.portWait
  canonical := g.canonical ∘ h.canonical
  inside hm := h.config ▸ g.inside (h.config.symm ▸ h.inside hm)

/-- Writing bytes that lie inside memory. -/
theorem State.LocalChange.poke (s : State) (a : Nat) (bs : List Byte) (h : a + bs.length ≤ s.config.memorySize) :
    s.LocalChange (s.poke a bs) :=
  ⟨rfl, rfl, rfl, rfl, rfl, rfl, rfl, rfl, rfl, s.mem.wf_writeBytes a bs,
    fun hm => s.mem.within_writeBytes a _ bs hm h⟩

theorem State.LocalChange.setReg (s : State) (r : Reg) (v : Word) : s.LocalChange (s.setReg r v) :=
  .compute s _ _ _ _ rfl

theorem State.LocalChange.writeLogic (s : State) (rd : Reg) (r : Word) : s.LocalChange (s.writeLogic rd r) := by
  obtain ⟨z, c, n, v, e⟩ := (s.setReg rd r).setFlagsLogic_shape r
  unfold State.writeLogic
  rw [e]
  exact .compute s _ _ _ _ rfl

/-! ## Errors -/

/-- A read or a write does not fail with EXECUTE (R45). -/
theorem State.AccessFails.access_ne_execute {s : State} {k : Access} {a : Word} {n : Nat} {e : Err}
    (h : s.AccessFails k a n e) (hk : k ≠ .execute) : e.toReg.access ≠ .execute := by
  rcases h with ⟨-, rfl⟩ | ⟨j, -, rfl⟩
  · nofun
  · exact hk

theorem State.OperandFails.access_ne_execute {s : State} {o : Operand} {e : Err} (h : s.OperandFails e o) :
    e.toReg.access ≠ .execute := by
  cases o with
  | register r => exact h.elim
  | immediate v => exact h.elim
  | memory a => exact State.AccessFails.access_ne_execute h nofun
  | registerIndirect r => exact State.AccessFails.access_ne_execute h nofun
  | undefinedMode m => subst h; nofun

/-! ## Attempts that change the core alone -/

/-- An attempt that reaches a value with `P`, or raises an error other than for EXECUTE after a local change of `s`. -/
def Attempt.Sound {α : Type} (s : State) (P : α → Prop) : Attempt α → Prop
  | .done a => P a
  | .raised e left => s.LocalChange left ∧ e.toReg.access ≠ .execute

theorem Attempt.Sound.bind {α β : Type} {s : State} {P : α → Prop} {Q : β → Prop} {x : Attempt α} {f : α → Attempt β}
    (hx : x.Sound s P) (hf : ∀ a, P a → (f a).Sound s Q) : (x.bind f).Sound s Q := by
  cases x with
  | done a => exact hf a hx
  | raised e left => exact hx

theorem Attempt.Sound.mono {α : Type} {s : State} {P Q : α → Prop} {x : Attempt α} (hx : x.Sound s P)
    (h : ∀ a, P a → Q a) : x.Sound s Q := by
  cases x with
  | done a => exact h a hx
  | raised e left => exact hx

/-- An attempt that starts after a local change of `s` is one that starts at `s`. -/
theorem Attempt.Sound.after {α : Type} {s t : State} {P : α → Prop} {x : Attempt α} (hx : x.Sound t P)
    (h : s.LocalChange t) : x.Sound s P := by
  cases x with
  | done a => exact hx
  | raised e left => exact ⟨h.trans hx.1, hx.2⟩

theorem State.memRead_sound (s : State) (a : Word) (n : Nat) : (s.memRead a n).Sound s fun _ => True := by
  rcases s.memRead_cases a n with ⟨-, e⟩ | ⟨x, h, e⟩ <;> rw [e]
  · trivial
  · exact ⟨.refl s, h.access_ne_execute nofun⟩

theorem State.memWrite_sound (s : State) (a : Word) (n : Nat) (v : Word) :
    (s.memWrite a n v).Sound s s.LocalChange := by
  rcases s.memWrite_cases a n v with ⟨h, e⟩ | ⟨-, e⟩ | ⟨j, h, e⟩ <;> rw [e]
  · exact .poke s _ _ (by simpa using h.1)
  · exact ⟨.refl s, nofun⟩
  · refine ⟨?_, nofun⟩
    have hin : a.toNat + ((bytesOfWord n v).take j).length ≤ s.config.memorySize := by
      have := h.1
      simp only [List.length_take, length_bytesOfWord]
      omega
    split
    · exact .poke s _ _ hin
    · exact .refl s

theorem State.push_sound (s : State) (v : Word) : (s.push v).Sound s s.LocalChange :=
  (s.memWrite_sound (s.sp - 8) 8 v).bind fun t h => h.trans (.compute t _ _ _ _ rfl)

theorem State.pop_sound (s : State) : s.pop.Sound s fun p => s.LocalChange p.2 :=
  (s.memRead_sound s.sp 8).bind fun _ _ => .compute s _ _ _ _ rfl

theorem State.writeOperand_sound (s : State) (o : Operand) (r reg1 : Reg) (v : Word) :
    (s.writeOperand o r reg1 v).Sound s s.LocalChange := by
  rcases s.writeOperand_cases o r reg1 v with ⟨q, e⟩ | ⟨a, e⟩ | e <;> rw [e]
  · exact .setReg s q v
  · exact s.memWrite_sound a 8 v
  · exact ⟨.refl s, nofun⟩

theorem State.loadWords_sound (s : State) (base : Nat) (ws : List Word) :
    (s.loadWords base ws).Sound s s.LocalChange := by
  induction ws generalizing s base with
  | nil => exact .refl s
  | cons w ws ih =>
    exact (s.memWrite_sound _ 8 w).bind fun t h => ((ih t (base + 8)).after h).mono fun _ g => h.trans g

/-- Interrupt entry pushes twice, which is local, and then writes `pc` and clears I (R138). -/
theorem State.enterHandler_sound (s : State) (n : Nat) :
    (s.enterHandler n).Sound s fun t =>
      ∃ u v, s.LocalChange u ∧ t = { u with pc := v, flags := { u.flags with i := false } } :=
  (s.push_sound s.pc).bind fun s1 h1 =>
    ((s1.push_sound s1.flags.word).after h1).bind fun s2 h2 =>
      ((s2.memRead_sound _ 8).after (h1.trans h2)).bind fun v _ => ⟨s2, v, h1.trans h2, rfl⟩

/-! ## What executing an instruction may do -/

/-- The effects of an instruction on the state after its fetch. -/
inductive State.Effect (s : State) : State → Prop where
  /-- Work inside the core. -/
  | work {t : State} (h : s.LocalChange t) : s.Effect t
  /-- One event is recorded and the count of port 1 draws may change; the rest is work inside the core. -/
  | recorded (e : Event) (draws : Nat) {t : State}
      (h : ({ s with port1Draws := draws }.record e).LocalChange t) : s.Effect t
  /-- A read of port 0, which takes a value or holds. -/
  | port0 (rd : Reg) : s.Effect (s.readPort0 rd)
  /-- HLT. -/
  | halted : s.Effect s.stop
  /-- An error is taken; under PARTIAL_WRITE the bytes below the denied one are written (R133). -/
  | raised (e : Err) {left : State} (h : s.LocalChange left) (he : e.toReg.access ≠ .execute) : s.Effect (left.raise e)

/-- The outcome is a next state, and the state has `P`. -/
def Answers (P : State → Prop) (out : Host.Outcome State Fault Refusal) : Prop :=
  ∃ t, out = .next t ∧ P t

theorem Answers.of_next {P : State → Prop} {out : Host.Outcome State Fault Refusal} {t : State} (h : Answers P out)
    (e : out = .next t) : P t := by
  obtain ⟨u, hu, hp⟩ := h
  cases hu.symm.trans e
  exact hp

theorem Attempt.Sound.finish {s : State} {x : Attempt State} (hx : x.Sound s s.Effect) : Answers s.Effect x.finish := by
  cases x with
  | done t => exact ⟨t, rfl, hx⟩
  | raised e left => exact ⟨_, rfl, .raised e hx.1 hx.2⟩

theorem State.withOperand_effect (s : State) (o : Operand) {k : Word → Attempt State}
    (hk : ∀ v, (k v).Sound s s.Effect) : Answers s.Effect (s.withOperand o k) := by
  rcases s.withOperand_cases o k with ⟨v, -, -, e⟩ | ⟨x, h, -, e⟩ <;> rw [e]
  · exact (hk v).finish
  · exact ⟨_, rfl, .raised x (.refl s) h.access_ne_execute⟩

theorem State.aluOp_effect (s : State) (f : Word → Word → AluResult) (rd : Reg) (src : Operand) :
    Answers s.Effect (s.aluOp f rd src) :=
  s.withOperand_effect src fun _ => .work (.compute s _ _ _ _ rfl)

theorem State.divisionOp_effect (s : State) (f : Word → Word → AluResult) (rd : Reg) (src : Operand) :
    Answers s.Effect (s.divisionOp f rd src) := by
  refine s.withOperand_effect src fun v => ?_
  split
  · exact ⟨.refl s, nofun⟩
  · exact .work (.compute s _ _ _ _ rfl)

theorem State.logicOp_effect (s : State) (f : Word → Word → Word) (rd : Reg) (src : Operand) :
    Answers s.Effect (s.logicOp f rd src) :=
  s.withOperand_effect src fun _ => .work (.writeLogic s rd _)

theorem State.branchIf_effect (s : State) (tgt : Operand) (taken : Bool) : Answers s.Effect (s.branchIf tgt taken) := by
  refine s.withOperand_effect tgt fun t => ?_
  split
  · exact .work (.compute s _ t _ _ rfl)
  · exact .work (.refl s)

theorem State.ioReadInto_effect (s : State) (p : Word) (rd : Reg) : s.Effect (s.ioReadInto p rd) := by
  unfold State.ioReadInto
  split
  · exact .port0 rd
  · split
    · exact .recorded _ _ (.setReg _ rd _)
    · exact .work (.setReg s rd 0)

theorem State.ioWrite_effect (s : State) (p v : Word) : s.Effect (s.ioWrite p v) := by
  unfold State.ioWrite
  split
  · exact .recorded _ s.port1Draws (.refl _)
  · split
    · exact .recorded _ s.port1Draws (.refl _)
    · exact .work (.refl s)

theorem execMov_effect (rd : Reg) (src : Operand) (s : State) : Answers s.Effect (execMov rd src s) := by
  refine s.withOperand_effect src fun v => ?_
  split
  · exact .work (.setReg s rd v)
  · exact (s.writeOperand_sound src rd rd v).mono fun _ h => .work h

/-- Every instruction answers a next state, with one of the effects (R132). -/
theorem exec_effect (i : Instr) (s : State) : Answers s.Effect (exec i s) := by
  cases i with
  | nop => exact ⟨_, rfl, .work (.refl s)⟩
  | mov rd src => exact execMov_effect rd src s
  | load rd addr =>
    exact s.withOperand_effect addr fun a => (s.memRead_sound a 8).bind fun v _ => .work (.setReg s rd v)
  | store addr rs => exact s.withOperand_effect addr fun a => (s.memWrite_sound a 8 _).mono fun _ h => .work h
  | push src => exact s.withOperand_effect src fun v => (s.push_sound v).mono fun _ h => .work h
  | pop rd =>
    exact Attempt.Sound.finish (s.pop_sound.bind fun p h => State.Effect.work (h.trans (.setReg p.2 rd p.1)))
  | add rd src => exact s.aluOp_effect aluAdd rd src
  | sub rd src => exact s.aluOp_effect aluSub rd src
  | mul rd src => exact s.aluOp_effect aluMul rd src
  | div rd src => exact s.divisionOp_effect aluDiv rd src
  | mod rd src => exact s.divisionOp_effect aluMod rd src
  | inc rd => exact ⟨_, rfl, .work (.compute s _ _ _ _ rfl)⟩
  | dec rd => exact ⟨_, rfl, .work (.compute s _ _ _ _ rfl)⟩
  | cmp ra src => exact s.withOperand_effect src fun _ => .work (.compute s _ _ _ _ rfl)
  | swap ra rb => exact ⟨_, rfl, .work (.compute s _ _ _ _ rfl)⟩
  | and rd src => exact s.logicOp_effect _ rd src
  | or rd src => exact s.logicOp_effect _ rd src
  | xor rd src => exact s.logicOp_effect _ rd src
  | not rd => exact ⟨_, rfl, .work (.writeLogic s rd _)⟩
  | shl rd count => exact s.aluOp_effect aluShl rd count
  | shr rd count => exact s.aluOp_effect aluShr rd count
  | jmp tgt => exact s.branchIf_effect tgt _
  | jz tgt => exact s.branchIf_effect tgt _
  | jnz tgt => exact s.branchIf_effect tgt _
  | jc tgt => exact s.branchIf_effect tgt _
  | jnc tgt => exact s.branchIf_effect tgt _
  | jl tgt => exact s.branchIf_effect tgt _
  | jle tgt => exact s.branchIf_effect tgt _
  | jg tgt => exact s.branchIf_effect tgt _
  | jge tgt => exact s.branchIf_effect tgt _
  | loop rc tgt => exact s.withOperand_effect tgt fun _ => .work (.compute s _ _ _ _ rfl)
  | call tgt =>
    exact s.withOperand_effect tgt fun t =>
      (s.push_sound s.pc).bind fun s1 h => .work (h.trans (.compute s1 _ t _ _ rfl))
  | ret =>
    exact Attempt.Sound.finish
      (s.pop_sound.bind fun p h => State.Effect.work (h.trans (.compute p.2 _ p.1 _ _ rfl)))
  | hlt => exact ⟨_, rfl, .halted⟩
  | print src => exact s.withOperand_effect src fun _ => .recorded _ s.port1Draws (.refl _)
  | inPort rd port => exact s.withOperand_effect port fun p => s.ioReadInto_effect p rd
  | outPort rs port => exact s.withOperand_effect port fun p => s.ioWrite_effect p _

/-! ## What a step may do -/

/-- The effects of one step (R76). -/
inductive State.StepEffect (s : State) : State → Prop where
  /-- A core that does not run does nothing (R25, R155). -/
  | idle (hr : s.running = false) : s.StepEffect s
  /-- A held read of port 0 goes on (D40). -/
  | goesOn (hr : s.running = true) (rd : Reg) (hw : s.portWait = some rd) : s.StepEffect (s.readPort0 rd)
  /-- The fetch raises; EXECUTE is checked only under FETCH_CHECKS_EXECUTE (R49). -/
  | fetchFailed (hr : s.running = true) (hw : s.portWait = none) (e : Err)
      (he : s.config.fetchChecksExecute = false → e.toReg.access ≠ .execute) : s.StepEffect (s.raise e)
  /-- The word at `pc` is executed, or taken as illegal, with `pc` advanced. -/
  | ran (hr : s.running = true) (hw : s.portWait = none) {t : State} (h : { s with pc := s.pc + 8 }.Effect t) :
      s.StepEffect t

/-- Every step answers a next state, with one of the effects. -/
theorem step_effect (s : State) : Answers s.StepEffect (step s) := by
  unfold step
  rcases s.phase_cases with
    ⟨hr, e⟩ | ⟨hr, rd, hw, e⟩ | ⟨hr, hw, x, -, e, hx⟩ | ⟨hr, hw, w, -, ⟨_, -, e⟩ | ⟨i, -, e⟩⟩ <;> rw [e]
  · exact ⟨_, rfl, .idle hr⟩
  · exact ⟨_, rfl, .goesOn hr rd hw⟩
  · refine ⟨_, rfl, .fetchFailed hr hw x fun hc => ?_⟩
    rcases hx with hx | ⟨hc', -⟩
    · exact hx.access_ne_execute nofun
    · simp [hc] at hc'
  · exact ⟨_, rfl, .ran hr hw (.raised _ (.refl _) nofun)⟩
  · obtain ⟨t, ht, h⟩ := exec_effect i { s with pc := s.pc + 8 }
    exact ⟨t, ht, .ran hr hw h⟩

/-! ## What only the host changes -/

/-- From `s` to `t` the parameters, the segment table and I are the same, and the trace has at most one event more. -/
def State.KeepsWhatOnlyHostChanges (s t : State) : Prop :=
  t.config = s.config ∧ t.segments = s.segments ∧ t.flags.i = s.flags.i ∧ ∃ l, l.length ≤ 1 ∧ t.trace = s.trace ++ l

theorem State.LocalChange.keeps {s t : State} (h : s.LocalChange t) : s.KeepsWhatOnlyHostChanges t :=
  ⟨h.config, h.segments, h.interrupt, [], by simp, by simp [h.trace]⟩

theorem State.readPort0_keeps (s : State) (rd : Reg) : s.KeepsWhatOnlyHostChanges (s.readPort0 rd) := by
  rcases s.readPort0_cases rd with ⟨-, e⟩ | ⟨v, rest, -, e⟩ <;> rw [e]
  · exact ⟨rfl, rfl, rfl, [], by simp, by simp⟩
  · exact ⟨rfl, rfl, rfl, [.portRead 0 v], le_rfl, rfl⟩

theorem State.Effect.keeps {s t : State} (h : s.Effect t) : s.KeepsWhatOnlyHostChanges t := by
  cases h with
  | work h => exact h.keeps
  | recorded e draws h => exact ⟨h.config, h.segments, h.interrupt, [e], le_rfl, h.trace⟩
  | port0 rd => exact s.readPort0_keeps rd
  | halted => exact (State.LocalChange.refl s).keeps
  | raised e h he => exact h.keeps

/-- Settles O50: each effect of a step keeps what only the host changes. -/
theorem stepKeepsWhatOnlyHostChanges : Obligations.StepKeepsWhatOnlyHostChanges := by
  intro s t hst
  cases (step_effect s).of_next hst with
  | idle hr => exact (State.LocalChange.refl s).keeps
  | goesOn hr rd hw => exact s.readPort0_keeps rd
  | fetchFailed hr hw e he => exact (State.LocalChange.refl s).keeps
  | ran hr hw h => exact h.keeps

/-! ## The invariant under steps -/

/-- The invariant reads the parameters, memory, `running`, `ERR` and the held step alone. -/
theorem State.Inv.transport {s t : State} (h : s.Inv) (hc : t.config = s.config)
    (hm : s.mem.wf = true → t.mem.wf = true)
    (hi : s.mem.within s.config.memorySize = true → t.mem.within s.config.memorySize = true)
    (hr : t.running = s.running) (he : t.err = s.err) (hw : t.portWait = s.portWait) : t.Inv where
  configOk := hc ▸ h.configOk
  memCanonical := hm h.memCanonical
  memInside := hc ▸ hi h.memInside
  runningClear := by rw [hr, he]; exact h.runningClear
  holdRuns := by rw [hr, hw]; exact h.holdRuns
  errAccess := he ▸ h.errAccess
  errAddr := he ▸ h.errAddr
  errExecute := by rw [hc, he]; exact h.errExecute

theorem State.LocalChange.inv {s t : State} (c : s.LocalChange t) (h : s.Inv) : t.Inv :=
  h.transport c.config c.canonical c.inside c.running c.err c.portWait

/-- What `ERR` holds after an error has a kind, and READ for its access but for AccessViolation (R26). -/
theorem Err.toReg_kind_access (e : Err) :
    e.toReg.kind ≠ .none ∧ (e.toReg.kind ≠ .accessViolation → e.toReg.access = .read) := by
  cases e <;> simp [Err.toReg]

theorem State.Inv.raise {s : State} (h : s.Inv) (hw : s.portWait = none) (e : Err)
    (he : s.config.fetchChecksExecute = false → e.toReg.access ≠ .execute) : (s.raise e).Inv where
  configOk := h.configOk
  memCanonical := h.memCanonical
  memInside := h.memInside
  runningClear := nofun
  holdRuns := by simp [hw]
  errAccess := e.toReg_kind_access.2
  errAddr hk := absurd hk e.toReg_kind_access.1
  errExecute := he

theorem State.Inv.stop {s : State} (h : s.Inv) (hw : s.portWait = none) : s.stop.Inv :=
  { h with runningClear := nofun, holdRuns := by simp [hw] }

theorem State.Inv.readPort0 {s : State} (h : s.Inv) (hr : s.running = true) (rd : Reg) : (s.readPort0 rd).Inv := by
  rcases s.readPort0_cases rd with ⟨-, e⟩ | ⟨v, rest, -, e⟩ <;> rw [e]
  · exact { h with holdRuns := fun _ => hr }
  · exact { h with holdRuns := nofun }

theorem State.Inv.effect {s t : State} (h : s.Inv) (hr : s.running = true) (hw : s.portWait = none) (ht : s.Effect t) :
    t.Inv := by
  cases ht with
  | work c => exact c.inv h
  | recorded e draws c => exact c.inv (h.transport rfl id id rfl rfl rfl)
  | port0 rd => exact h.readPort0 hr rd
  | halted => exact h.stop hw
  | raised e c he => exact (c.inv h).raise (c.portWait.trans hw) e fun _ => he

theorem State.Inv.step {s t : State} (h : s.Inv) (hst : step s = .next t) : t.Inv := by
  cases (step_effect s).of_next hst with
  | idle hr => exact h
  | goesOn hr rd hw => exact h.readPort0 hr rd
  | fetchFailed hr hw e he => exact h.raise hw e he
  | ran hr hw c => exact ((State.LocalChange.compute s _ (s.pc + 8) _ _ rfl).inv h).effect hr hw c

/-! ## The invariant under host commands -/

/-- `t` has the invariant and the parameters of `s`. -/
def State.KeepsInv (s t : State) : Prop := t.Inv ∧ t.config = s.config

theorem State.LocalChange.keepsInv {s t : State} (c : s.LocalChange t) (h : s.Inv) : s.KeepsInv t :=
  ⟨c.inv h, c.config⟩

theorem State.loadProgram_localChange (s : State) (words : List Word) (base : Word) :
    s.LocalChange (s.loadProgram words base).1 := by
  unfold State.loadProgram
  split
  · exact .refl s
  · have hs := s.loadWords_sound base.toNat words
    cases e : s.loadWords base.toNat words with
    | done t => rw [e] at hs; exact State.LocalChange.trans hs (.compute t _ base _ _ rfl)
    | raised x left => rw [e] at hs; exact hs.1

theorem State.setRegister_localChange (s : State) (i v : Nat) : s.LocalChange (s.setRegister i v) := by
  unfold State.setRegister
  split
  · exact .setReg s _ _
  · exact .refl s

/-- `set_flag` changes the flag word alone (R159). -/
theorem State.setFlag_shape (s : State) (f b : Nat) : ∃ g, s.setFlag f b = { s with flags := g } := by
  unfold State.setFlag
  split <;> exact ⟨_, rfl⟩

/-- Clearing memory keeps the invariant: the empty list is canonical and holds no address (R55). -/
theorem State.Inv.clearMemory {s : State} (h : s.Inv) : s.clearMemory.Inv :=
  h.transport rfl (fun _ => rfl) (fun _ => rfl) rfl rfl rfl

theorem State.Inv.resume {s : State} (h : s.Inv) : s.resume.Inv :=
  { h with runningClear := fun _ => rfl, holdRuns := fun _ => rfl, errAccess := fun _ => rfl, errAddr := fun _ => rfl,
           errExecute := nofun }

theorem State.Inv.cpuReset {s : State} (h : s.Inv) : s.cpuReset.Inv :=
  { h with runningClear := fun _ => rfl, holdRuns := nofun, errAccess := fun _ => rfl, errAddr := fun _ => rfl,
           errExecute := nofun }

theorem State.Inv.interruptEntry {s : State} (h : s.Inv) (hw : s.portWait = none) (n : Nat) :
    s.KeepsInv (s.interruptEntry n) := by
  have hs := s.enterHandler_sound n
  rcases s.interruptEntry_cases n with ⟨t, e, e'⟩ | ⟨x, left, e, e'⟩ <;> rw [e] at hs <;> rw [e']
  · obtain ⟨u, v, c, rfl⟩ := hs
    exact ⟨(c.inv h).transport rfl id id rfl rfl rfl, c.config⟩
  · exact ⟨h.raise hw x fun _ => hs.2, rfl⟩

/-- A command that may be given keeps the invariant and the parameters. -/
theorem State.Inv.perform {s t : State} {c : Command} {r : Reply} (h : s.Inv)
    (hw : s.portWait = none ∨ c.allowedDuringHold = true) (e : s.perform c = .next (t, r)) : s.KeepsInv t := by
  cases c with
  | loadProgram words base =>
    have hl : s.loadProgram words base = (t, r) := Host.Outcome.next.inj e
    have c := s.loadProgram_localChange words base
    rw [hl] at c
    exact c.keepsInv h
  | run => cases e; exact ⟨h.resume, rfl⟩
  | step =>
    obtain ⟨u, hu, -⟩ := step_effect s
    simp only [State.perform, hu] at e
    cases e
    exact ⟨h.step hu, (stepKeepsWhatOnlyHostChanges s t hu).1⟩
  | stop => cases e; exact ⟨h.stop (hw.resolve_right nofun), rfl⟩
  | reset => cases e; exact ⟨h.clearMemory.cpuReset, rfl⟩
  | getRegister i => cases e; exact ⟨h, rfl⟩
  | setRegister i v => cases e; exact (s.setRegister_localChange i v).keepsInv h
  | getPc => cases e; exact ⟨h, rfl⟩
  | setPc v => cases e; exact (State.LocalChange.compute s _ _ _ _ rfl).keepsInv h
  | getSp => cases e; exact ⟨h, rfl⟩
  | setSp v => cases e; exact (State.LocalChange.compute s _ _ _ _ rfl).keepsInv h
  | getFlag f => cases e; exact ⟨h, rfl⟩
  | setFlag f b =>
    obtain ⟨g, hg⟩ := s.setFlag_shape f b
    simp only [State.perform, hg] at e
    cases e
    exact ⟨h.transport rfl id id rfl rfl rfl, rfl⟩
  | dump start length => cases e; exact ⟨h, rfl⟩
  | clear => cases e; exact ⟨h.clearMemory, rfl⟩
  | addSegment name base size mask => cases e; exact ⟨h.transport rfl id id rfl rfl rfl, rfl⟩
  | enableDebug on => cases e; exact ⟨h, rfl⟩
  | enableStepByStep on => cases e; exact ⟨h, rfl⟩
  | handleInterrupt n =>
    simp only [State.perform] at e
    split at e
    · cases e
      exact h.interruptEntry (hw.resolve_right nofun) n
    · cases e
  | supplyPort0 v => cases e; exact ⟨h.transport rfl id id rfl rfl rfl, rfl⟩

/-- A command that is answered is performed, and either no step holds or the command may be given while one does (R161). -/
theorem State.command_answered {s : State} {c : Command} {p : State × Reply} (e : s.command c = .next p) :
    (s.portWait = none ∨ c.allowedDuringHold = true) ∧ s.perform c = .next p := by
  unfold State.command at e
  split at e
  · cases e
  · next hn =>
    refine ⟨?_, e⟩
    cases hp : s.portWait with
    | none => exact .inl rfl
    | some rd => right; simpa [hp] using hn

/-- Settles O53: an answered command is performed, and each command keeps the invariant and the parameters. -/
theorem hostCommandsKeepTheInvariant : Obligations.HostCommandsKeepTheInvariant := by
  intro s t c r h e
  obtain ⟨hw, hp⟩ := State.command_answered e
  exact h.perform hw hp

end Sys2Proof.Machine
end

section
/-! The state of the core: the flag derivator (R31, R32), the invariant along steps, and what an instruction does not read.
For the last, two runs side by side: states that differ in I alone, or in I and ERR, go through the
same checks, reach the same values and raise the same errors, operation by operation, and so does a whole step (R26, R29). -/

namespace Sys2Proof.Machine

/-! ## The flag derivator -/

/-- Z and N as R31 states them, on the number the result stands for. -/
theorem Flags.derive_eq (f : Flags) (r : Word) (c v : Bool) :
    f.derive r c v = { z := decide (r.toNat = 0), n := decide (2 ^ 63 ≤ r.toNat), c := c, v := v, i := f.i } := by
  have hz : decide (r = 0) = decide (r.toNat = 0) := decide_eq_decide.2 BitVec.toNat_inj.symm
  have hn : r.getLsbD 63 = decide (2 ^ 63 ≤ r.toNat) := by
    rw [← BitVec.msb_eq_getLsbD_last, BitVec.msb_eq_decide]
  simp only [Flags.derive, hz, hn]

/-- Settles O15: the derived flags, and the two settings of LOGIC_PRESERVES_CV (R31, R32). -/
theorem flagDerivatorFollowsRule : Obligations.FlagDerivatorFollowsRule := by
  intro s r c v
  refine ⟨?_, fun hk => ?_, fun hk => ?_⟩
  · simp only [State.setFlags, Flags.derive_eq]
  · simp only [s.setFlagsLogic_eq, hk, Bool.true_and, State.setFlags, Flags.derive_eq]
  · simp only [s.setFlagsLogic_eq, hk, Bool.false_and]

/-! ## The invariant -/

/-- Settles O51: each effect of a step keeps the invariant (`State.Inv.step`). -/
theorem stepKeepsTheInvariant : Obligations.StepKeepsTheInvariant :=
  fun _ _ h hst => h.step hst

/-! ## States that differ in I and ERR -/

/-- `t` is `s` but for I, and but for ERR where `free` allows it to differ. -/
inductive State.Alike (free : Prop) (s : State) : State → Prop where
  | mk (i : Bool) (e : ErrReg) (h : free ∨ e = s.err) :
    s.Alike free { s with flags := { s.flags with i := i }, err := e }

/-- Two attempts come out alike: values related by `R`, or the same error from states alike. -/
inductive Attempt.Alike (free : Prop) {α : Type} (R : α → α → Prop) : Attempt α → Attempt α → Prop where
  | done {a a' : α} (h : R a a') : Attempt.Alike free R (.done a) (.done a')
  | raised (e : Err) {l l' : State} (h : l.Alike free l') : Attempt.Alike free R (.raised e l) (.raised e l')

/-- The same word, with states alike: what a pop and a fetch come to. -/
def WordAlike (free : Prop) (p p' : Word × State) : Prop :=
  p.1 = p'.1 ∧ p.2.Alike free p'.2

/-- Two outcomes are next states, and they are alike. -/
def AnswerAlike (free : Prop) (out out' : Host.Outcome State Fault Refusal) : Prop :=
  ∃ t t', out = .next t ∧ out' = .next t' ∧ t.Alike free t'

/-- Two steps find the same to do, in states alike. -/
inductive Phase.Alike (free : Prop) : Phase → Phase → Prop where
  | halted : Phase.Alike free .halted .halted
  | holding (rd : Reg) : Phase.Alike free (.holding rd) (.holding rd)
  | fetchFailed (e : Err) : Phase.Alike free (.fetchFailed e) (.fetchFailed e)
  | illegal {s s' : State} (h : s.Alike free s') : Phase.Alike free (.illegal s) (.illegal s')
  | execute (i : Instr) {s s' : State} (h : s.Alike free s') : Phase.Alike free (.execute i s) (.execute i s')

section
variable {free : Prop} {s s' : State}

/-! ### Updates -/

theorem State.Alike.next (h : s.Alike free s') : AnswerAlike free (.next s) (.next s') :=
  ⟨s, s', rfl, rfl, h⟩

theorem State.Alike.setReg (h : s.Alike free s') (r : Reg) (v : Word) : (s.setReg r v).Alike free (s'.setReg r v) := by
  cases h with | mk i e h => exact .mk i e h

theorem State.Alike.setPc (h : s.Alike free s') (v : Word) : { s with pc := v }.Alike free { s' with pc := v } := by
  cases h with | mk i e h => exact .mk i e h

theorem State.Alike.setSp (h : s.Alike free s') (v : Word) : { s with sp := v }.Alike free { s' with sp := v } := by
  cases h with | mk i e h => exact .mk i e h

theorem State.Alike.poke (h : s.Alike free s') (a : Nat) (bs : List Byte) :
    (s.poke a bs).Alike free (s'.poke a bs) := by
  cases h with | mk i e h => exact .mk i e h

theorem State.Alike.setFlags (h : s.Alike free s') (r : Word) (c v : Bool) :
    (s.setFlags r c v).Alike free (s'.setFlags r c v) := by
  cases h with | mk i e h => exact .mk i e h

theorem State.Alike.setFlagsLogic (h : s.Alike free s') (r : Word) :
    (s.setFlagsLogic r).Alike free (s'.setFlagsLogic r) := by
  rw [s.setFlagsLogic_eq, s'.setFlagsLogic_eq]
  cases h with | mk i e h => exact .mk i e h

theorem State.Alike.record (h : s.Alike free s') (e : Event) : (s.record e).Alike free (s'.record e) := by
  cases h with | mk i e h => exact .mk i e h

theorem State.Alike.stop (h : s.Alike free s') : s.stop.Alike free s'.stop := by
  cases h with | mk i e h => exact .mk i e h

/-- Taking an error overwrites ERR, so the states after it agree in ERR. -/
theorem State.Alike.raise (h : s.Alike free s') (x : Err) : (s.raise x).Alike free (s'.raise x) := by
  cases h with | mk i e h => exact .mk i x.toReg (.inr rfl)

/-! ### What is read -/

theorem State.Alike.reg_eq (h : s.Alike free s') : s'.reg = s.reg := by cases h; rfl
theorem State.Alike.pc_eq (h : s.Alike free s') : s'.pc = s.pc := by cases h; rfl
theorem State.Alike.sp_eq (h : s.Alike free s') : s'.sp = s.sp := by cases h; rfl
theorem State.Alike.config_eq (h : s.Alike free s') : s'.config = s.config := by cases h; rfl
theorem State.Alike.mem_eq (h : s.Alike free s') : s'.mem = s.mem := by cases h; rfl
theorem State.Alike.running_eq (h : s.Alike free s') : s'.running = s.running := by cases h; rfl
theorem State.Alike.portWait_eq (h : s.Alike free s') : s'.portWait = s.portWait := by cases h; rfl
theorem State.Alike.instrAddr_eq (h : s.Alike free s') : s'.instrAddr = s.instrAddr := by cases h; rfl

theorem State.Alike.outOfBounds_eq (h : s.Alike free s') : s'.outOfBounds = s.outOfBounds := by cases h; rfl
theorem State.Alike.permitted_eq (h : s.Alike free s') : s'.permitted = s.permitted := by cases h; rfl

theorem State.Alike.firstDenied_eq (h : s.Alike free s') (k : Access) (a n : Nat) :
    s'.firstDenied k a n = s.firstDenied k a n := by
  induction n generalizing a with
  | zero => rfl
  | succ n ih => rw [State.firstDenied, State.firstDenied, h.permitted_eq, ih]

/-! ### Attempts -/

theorem Attempt.Alike.bind {α β : Type} {R : α → α → Prop} {Q : β → β → Prop} {x x' : Attempt α}
    {f f' : α → Attempt β} (hx : Attempt.Alike free R x x') (hf : ∀ a a', R a a' → Attempt.Alike free Q (f a) (f' a')) :
    Attempt.Alike free Q (x.bind f) (x'.bind f') := by
  cases hx with
  | done h => exact hf _ _ h
  | raised e h => exact .raised e h

/-- Going on with a value both attempts agree in. -/
theorem Attempt.Alike.bind_eq {α β : Type} {Q : β → β → Prop} {x x' : Attempt α}
    {f f' : α → Attempt β} (hx : Attempt.Alike free Eq x x') (hf : ∀ a, Attempt.Alike free Q (f a) (f' a)) :
    Attempt.Alike free Q (x.bind f) (x'.bind f') :=
  hx.bind fun a _ e => e ▸ hf a

theorem Attempt.Alike.finish {x x' : Attempt State} (hx : Attempt.Alike free (State.Alike free) x x') :
    AnswerAlike free x.finish x'.finish := by
  cases hx with
  | done h => exact h.next
  | raised e h => exact (h.raise e).next

theorem State.Alike.memRead (h : s.Alike free s') (a : Word) (n : Nat) :
    Attempt.Alike free Eq (s.memRead a n) (s'.memRead a n) := by
  unfold State.memRead
  rw [h.outOfBounds_eq, h.firstDenied_eq, h.mem_eq]
  split
  · exact .raised _ h
  · split
    · exact .raised _ h
    · exact .done rfl

theorem State.Alike.memWrite (h : s.Alike free s') (a : Word) (n : Nat) (v : Word) :
    Attempt.Alike free (State.Alike free) (s.memWrite a n v) (s'.memWrite a n v) := by
  unfold State.memWrite
  rw [h.outOfBounds_eq, h.firstDenied_eq, h.config_eq]
  split
  · exact .raised _ h
  · split
    · split
      · exact .raised _ (h.poke _ _)
      · exact .raised _ h
    · exact .done (h.poke _ _)

theorem State.Alike.memFetch (h : s.Alike free s') (a : Word) :
    Attempt.Alike free Eq (s.memFetch a) (s'.memFetch a) := by
  refine (h.memRead a 8).bind_eq fun w => ?_
  rw [h.config_eq, h.firstDenied_eq]
  split
  · split
    · exact .raised _ h
    · exact .done rfl
  · exact .done rfl

theorem State.Alike.push (h : s.Alike free s') (v : Word) :
    Attempt.Alike free (State.Alike free) (s.push v) (s'.push v) := by
  simp only [State.push, h.sp_eq]
  exact (h.memWrite _ 8 v).bind fun _ _ ht => .done (ht.setSp _)

theorem State.Alike.pop (h : s.Alike free s') :
    Attempt.Alike free (WordAlike free) s.pop s'.pop := by
  simp only [State.pop, h.sp_eq]
  exact (h.memRead _ 8).bind_eq fun _ => .done ⟨rfl, h.setSp _⟩

theorem State.Alike.fetch (h : s.Alike free s') :
    Attempt.Alike free (WordAlike free) s.fetch s'.fetch := by
  simp only [State.fetch, h.pc_eq]
  exact (h.memFetch _).bind_eq fun _ => .done ⟨rfl, h.setPc _⟩

theorem State.Alike.readOperand (h : s.Alike free s') (o : Operand) :
    Attempt.Alike free Eq (s.readOperand o) (s'.readOperand o) := by
  cases o with
  | register r => exact .done (congrFun h.reg_eq r).symm
  | immediate v => exact .done rfl
  | memory a => exact h.memRead _ 8
  | registerIndirect r => simp only [State.readOperand, h.reg_eq]; exact h.memRead _ 8
  | undefinedMode m => simp only [State.readOperand, h.instrAddr_eq]; exact .raised _ h

theorem State.Alike.writeOperand (h : s.Alike free s') (o : Operand) (r reg1 : Reg) (v : Word) :
    Attempt.Alike free (State.Alike free) (s.writeOperand o r reg1 v) (s'.writeOperand o r reg1 v) := by
  cases o with
  | register q => exact .done (h.setReg r v)
  | immediate w => exact .done (h.setReg reg1 v)
  | memory a => exact h.memWrite _ 8 v
  | registerIndirect q => simp only [State.writeOperand, h.reg_eq]; exact h.memWrite _ 8 v
  | undefinedMode m => simp only [State.writeOperand, h.instrAddr_eq]; exact .raised _ h

/-! ### Instructions -/

theorem State.Alike.withOperand (h : s.Alike free s') (o : Operand) {k k' : Word → Attempt State}
    (hk : ∀ v, Attempt.Alike free (State.Alike free) (k v) (k' v)) :
    AnswerAlike free (s.withOperand o k) (s'.withOperand o k') :=
  ((h.readOperand o).bind_eq hk).finish

/-- A result computed from the register it is written to. -/
theorem State.Alike.writeResult (h : s.Alike free s') (rd : Reg) (f : Word → AluResult) :
    (s.writeResult rd (f (s.reg rd))).Alike free (s'.writeResult rd (f (s'.reg rd))) := by
  rw [h.reg_eq]
  exact (h.setReg rd _).setFlags _ _ _

/-- A logical result computed from the register it is written to. -/
theorem State.Alike.writeLogic (h : s.Alike free s') (rd : Reg) (f : Word → Word) :
    (s.writeLogic rd (f (s.reg rd))).Alike free (s'.writeLogic rd (f (s'.reg rd))) := by
  rw [h.reg_eq]
  exact (h.setReg rd _).setFlagsLogic _

theorem State.Alike.aluOp (h : s.Alike free s') (f : Word → Word → AluResult) (rd : Reg) (src : Operand) :
    AnswerAlike free (s.aluOp f rd src) (s'.aluOp f rd src) :=
  h.withOperand src fun v => .done (h.writeResult rd fun x => f x v)

theorem State.Alike.divisionOp (h : s.Alike free s') (f : Word → Word → AluResult) (rd : Reg) (src : Operand) :
    AnswerAlike free (s.divisionOp f rd src) (s'.divisionOp f rd src) := by
  refine h.withOperand src fun v => ?_
  rw [h.instrAddr_eq]
  split
  · exact .raised _ h
  · exact .done (h.writeResult rd fun x => f x v)

theorem State.Alike.logicOp (h : s.Alike free s') (f : Word → Word → Word) (rd : Reg) (src : Operand) :
    AnswerAlike free (s.logicOp f rd src) (s'.logicOp f rd src) :=
  h.withOperand src fun v => .done (h.writeLogic rd fun x => f x v)

theorem State.Alike.branchIf (h : s.Alike free s') (tgt : Operand) (taken : Bool) :
    AnswerAlike free (s.branchIf tgt taken) (s'.branchIf tgt taken) := by
  refine h.withOperand tgt fun t => .done ?_
  cases taken with
  | true => exact h.setPc t
  | false => exact h

/-- A branch whose condition reads only flags the two states agree in: Z, C, N and V (R106). -/
theorem State.Alike.branchOn (h : s.Alike free s') (tgt : Operand) (cond : Bool → Bool → Bool → Bool → Bool) :
    AnswerAlike free (s.branchIf tgt (cond s.flags.z s.flags.c s.flags.n s.flags.v))
      (s'.branchIf tgt (cond s'.flags.z s'.flags.c s'.flags.n s'.flags.v)) := by
  have e : cond s'.flags.z s'.flags.c s'.flags.n s'.flags.v = cond s.flags.z s.flags.c s.flags.n s.flags.v := by
    cases h; rfl
  exact e ▸ h.branchIf tgt _

theorem State.Alike.readPort0 (h : s.Alike free s') (rd : Reg) : (s.readPort0 rd).Alike free (s'.readPort0 rd) := by
  cases h with
  | mk i e h =>
    unfold State.readPort0
    cases s.port0Input with
    | nil => exact .mk i e h
    | cons v rest => exact .mk i e h

theorem State.Alike.readPort1 (h : s.Alike free s') (rd : Reg) : (s.readPort1 rd).Alike free (s'.readPort1 rd) := by
  cases h with | mk i e h => exact .mk i e h

theorem State.Alike.ioReadInto (h : s.Alike free s') (p : Word) (rd : Reg) :
    (s.ioReadInto p rd).Alike free (s'.ioReadInto p rd) := by
  unfold State.ioReadInto
  split
  · exact h.readPort0 rd
  · split
    · exact h.readPort1 rd
    · exact h.setReg rd 0

theorem State.Alike.ioWrite (h : s.Alike free s') (p v : Word) : (s.ioWrite p v).Alike free (s'.ioWrite p v) := by
  unfold State.ioWrite
  split
  · exact h.record _
  · split
    · exact h.record _
    · exact h

theorem State.Alike.execMov (h : s.Alike free s') (rd : Reg) (src : Operand) :
    AnswerAlike free (execMov rd src s) (execMov rd src s') := by
  refine h.withOperand src fun v => ?_
  rw [h.config_eq]
  split
  · exact .done (h.setReg rd v)
  · exact h.writeOperand src rd rd v

theorem State.Alike.execSwap (h : s.Alike free s') (ra rb : Reg) :
    AnswerAlike free (execSwap ra rb s) (execSwap ra rb s') := by
  cases h with | mk i e h => exact State.Alike.next (.mk i e h)

/-- Every instruction answers alike from states alike. -/
theorem State.Alike.exec (h : s.Alike free s') (i : Instr) : AnswerAlike free (exec i s) (exec i s') := by
  cases i with
  | nop => exact h.next
  | mov rd src => exact h.execMov rd src
  | load rd addr =>
    exact h.withOperand addr fun a => (h.memRead a 8).bind_eq fun v => .done (h.setReg rd v)
  | store addr rs => exact h.withOperand addr fun a => h.reg_eq ▸ h.memWrite a 8 (s.reg rs)
  | push src => exact h.withOperand src fun v => h.push v
  | pop rd => exact (h.pop.bind fun p _ ⟨hw, ht⟩ => .done (hw ▸ ht.setReg rd p.1)).finish
  | add rd src => exact h.aluOp aluAdd rd src
  | sub rd src => exact h.aluOp aluSub rd src
  | mul rd src => exact h.aluOp aluMul rd src
  | div rd src => exact h.divisionOp aluDiv rd src
  | mod rd src => exact h.divisionOp aluMod rd src
  | inc rd => exact (h.writeResult rd fun x => aluAdd x 1).next
  | dec rd => exact (h.writeResult rd fun x => aluSub x 1).next
  | cmp ra src => exact h.withOperand src fun v => .done (h.reg_eq ▸ h.setFlags _ _ _)
  | swap ra rb => exact h.execSwap ra rb
  | and rd src => exact h.logicOp _ rd src
  | or rd src => exact h.logicOp _ rd src
  | xor rd src => exact h.logicOp _ rd src
  | not rd => exact (h.writeLogic rd fun x => ~~~ x).next
  | shl rd count => exact h.aluOp aluShl rd count
  | shr rd count => exact h.aluOp aluShr rd count
  | jmp tgt => exact h.branchIf tgt true
  | jz tgt => exact h.branchOn tgt fun z _ _ _ => z
  | jnz tgt => exact h.branchOn tgt fun z _ _ _ => !z
  | jc tgt => exact h.branchOn tgt fun _ c _ _ => c
  | jnc tgt => exact h.branchOn tgt fun _ c _ _ => !c
  | jl tgt => exact h.branchOn tgt fun _ _ n v => n != v
  | jle tgt => exact h.branchOn tgt fun z _ n v => z || n != v
  | jg tgt => exact h.branchOn tgt fun z _ n v => !z && n == v
  | jge tgt => exact h.branchOn tgt fun _ _ n v => n == v
  | loop rc tgt =>
    refine h.withOperand tgt fun t => .done ?_
    rw [h.reg_eq, h.pc_eq]
    exact (h.setReg rc _).setPc _
  | call tgt =>
    refine h.withOperand tgt fun t => ?_
    rw [h.pc_eq]
    exact (h.push s.pc).bind fun _ _ h1 => .done (h1.setPc t)
  | ret => exact (h.pop.bind fun p _ ⟨hw, ht⟩ => .done (hw ▸ ht.setPc p.1)).finish
  | hlt => exact h.stop.next
  | print src => exact h.withOperand src fun v => .done (h.record _)
  | inPort rd port => exact h.withOperand port fun p => .done (h.ioReadInto p rd)
  | outPort rs port => exact h.withOperand port fun p => .done (h.reg_eq ▸ h.ioWrite p (s.reg rs))

/-! ### Steps -/

/-- The same fetch and the same decoding: the checks and the bytes are the same. -/
theorem State.Alike.phase (h : s.Alike free s') : Phase.Alike free s.phase s'.phase := by
  unfold State.phase
  rw [h.running_eq, h.portWait_eq, h.config_eq]
  cases s.running with
  | false => exact .halted
  | true =>
    cases s.portWait with
    | some rd => exact .holding rd
    | none =>
      have hf := h.fetch
      generalize s.fetch = x, s'.fetch = x' at hf
      cases hf with
      | raised e hl => exact .fetchFailed e
      | @done p p' hp =>
        obtain ⟨w, s1⟩ := p
        obtain ⟨w', s1'⟩ := p'
        obtain ⟨rfl, h1⟩ := hp
        dsimp only at h1 ⊢
        split
        · exact .illegal h1
        · exact .execute _ h1

/-- Every step answers alike from states alike. -/
theorem State.Alike.step (h : s.Alike free s') : AnswerAlike free (step s) (step s') := by
  unfold Machine.step
  rw [h.pc_eq]
  have hp := h.phase
  generalize s.phase = p, s'.phase = p' at hp
  cases hp with
  | halted => exact h.next
  | holding rd => exact (h.readPort0 rd).next
  | fetchFailed e => exact (h.raise e).next
  | illegal h1 => exact (h1.raise (.illegalOpcode s.pc)).next
  | execute i h1 => exact h1.exec i

/-- What a step comes to from a state alike: the same but for I, which stays as it was there, and for ERR where that may
differ. -/
theorem State.Alike.step_next {t : State} (h : s.Alike free s') (hst : Machine.step s = .next t) :
    ∃ e, (free ∨ e = t.err) ∧
      Machine.step s' = .next { t with flags := { t.flags with i := s'.flags.i }, err := e } := by
  obtain ⟨u, u', hu, hu', ha⟩ := h.step
  cases hst.symm.trans hu
  obtain ⟨-, -, hi, -⟩ := stepKeepsWhatOnlyHostChanges s' u' hu'
  cases ha with
  | mk i e he =>
    cases hi
    exact ⟨e, he, hu'⟩

end

/-- Settles O54: states that differ in I alone stay alike, with ERR the same. -/
theorem interruptFlagIsNeverRead : Obligations.InterruptFlagIsNeverRead := by
  intro s t b hst
  obtain ⟨e, he, hst'⟩ := (State.Alike.mk (free := False) b s.err (.inr rfl)).step_next hst
  rw [hst', he.resolve_left id]

/-- Settles O55: states that differ in ERR alone stay alike, and I is not written. -/
theorem errorRegisterIsNeverRead : Obligations.ErrorRegisterIsNeverRead := by
  intro s t e hst
  obtain ⟨e', -, hst'⟩ := (State.Alike.mk (free := True) s.flags.i e (.inl trivial)).step_next hst
  obtain ⟨-, -, hi, -⟩ := stepKeepsWhatOnlyHostChanges s t hst
  exact ⟨_, hst', by rw [← hi]⟩

end Sys2Proof.Machine
end

section
/-! The memory: which segment permits a byte (R42 to R44, R54), and what the checked read, write and fetch answer in each
case (R47, R48, R49, R51). -/

namespace Sys2Proof.Machine

/-! ## Permissions -/

theorem Segment.covers_iff (g : Segment) (a : Nat) :
    g.covers a = true ↔ g.base.toNat ≤ a ∧ a < g.base.toNat + g.size.toNat := decide_eq_true_iff

/-- A byte is permitted when the mask of the segment the lookup finds includes the kind (R44). -/
theorem State.permitted_eq (s : State) (k : Access) (a : Nat) :
    s.permitted k a = ((s.lookup a).map Segment.perms).any (·.allows k) := by
  unfold State.permitted
  cases s.lookup a <;> rfl

theorem State.permitted_iff (s : State) (k : Access) (a : Nat) :
    s.permitted k a = true ↔ ∃ g, s.lookup a = some g ∧ g.perms.allows k = true := by
  unfold State.permitted
  cases s.lookup a <;> simp

/-- The lookup finds the segment that covers the byte and has none before it that does (R43). -/
theorem State.lookup_eq_some_iff (s : State) (a : Nat) (g : Segment) :
    s.lookup a = some g ↔
      ∃ pre post, s.segments = pre ++ g :: post ∧
        (∀ h ∈ pre, ¬ (h.base.toNat ≤ a ∧ a < h.base.toNat + h.size.toNat)) ∧
        (g.base.toNat ≤ a ∧ a < g.base.toNat + g.size.toNat) := by
  rw [State.lookup, List.find?_eq_some_iff_append, Segment.covers_iff, and_comm]
  simp only [Bool.not_eq_true', ← Bool.not_eq_true, Segment.covers_iff, ← and_assoc, exists_and_right]

/-- Settles O7, from what the lookup finds. -/
theorem permissionIsOfFirstCoveringSegment : Obligations.PermissionIsOfFirstCoveringSegment := by
  intro s k a
  rw [s.permitted_iff]
  constructor
  · rintro ⟨g, hl, hp⟩
    obtain ⟨pre, post, hs, hpre, hg⟩ := (s.lookup_eq_some_iff a g).1 hl
    exact ⟨pre, g, post, hs, hpre, hg, by cases k <;> exact hp⟩
  · rintro ⟨pre, g, post, hs, hpre, hg, hp⟩
    exact ⟨g, (s.lookup_eq_some_iff a g).2 ⟨pre, post, hs, hpre, hg⟩, by cases k <;> exact hp⟩

/-- What the lookup finds in the machine of `State.reset`: the code segment grants every kind, the data, heap and stack
segments all but EXECUTE, and no other byte is covered (R41). -/
theorem State.reset_lookup_perms (a : Nat) :
    (State.reset.lookup a).map Segment.perms =
      if a < 0x100000 then some ⟨true, true, true⟩
      else if a < 0x300000 ∨ (0x700000 ≤ a ∧ a < 0x800000) then some ⟨true, true, false⟩
      else none := by
  have hseg : State.reset.segments = defaultSegments 0x800000 := rfl
  simp only [State.lookup, hseg, defaultSegments, List.find?_cons, List.find?_nil, Segment.covers, Nat.reduceSub,
    BitVec.reduceToNat, Nat.reduceAdd]
  by_cases hcode : a < 0x100000
  · simp [hcode]
  by_cases hdata : a < 0x200000
  · simp [hcode, hdata, show 0x100000 ≤ a by omega, show a < 0x300000 by omega]
  by_cases hheap : a < 0x300000
  · simp [hcode, hdata, hheap, show 0x200000 ≤ a by omega]
  by_cases hstack : 0x700000 ≤ a ∧ a < 0x800000 <;> simp [hcode, hdata, hheap, hstack]

/-- Settles O8, range by range of what the lookup finds. -/
theorem resetSegmentsPermit : Obligations.ResetSegmentsPermit := by
  intro a
  simp only [State.permitted_eq, State.reset_lookup_perms]
  split_ifs with hcode hdata
  · simp [Permissions.allows, hcode]; omega
  · simp [Permissions.allows, hcode, hdata]
  · simp [Permissions.allows, hcode, hdata]

/-! ## What a checked access finds -/

theorem State.outOfBounds_eq_false {s : State} {addr : Word} {n : Nat} (h : addr.toNat + n ≤ s.config.memorySize) :
    s.outOfBounds addr n = false := by
  simpa [State.outOfBounds] using h

theorem State.outOfBounds_eq_true {s : State} {addr : Word} {n : Nat} (h : s.config.memorySize < addr.toNat + n) :
    s.outOfBounds addr n = true := by
  simpa [State.outOfBounds] using h

theorem State.Accessible.firstDenied_eq {s : State} {k : Access} {addr : Word} {n : Nat} (h : s.Accessible k addr n) :
    s.firstDenied k addr.toNat n = none :=
  (s.firstDenied_none k addr.toNat n).2 h.2

theorem State.DeniedAt.firstDenied_eq {s : State} {k : Access} {addr : Word} {n j : Nat} (h : s.DeniedAt k addr n j) :
    s.firstDenied k addr.toNat n = some (addr.toNat + j) := by
  obtain ⟨-, hj, hd, hp⟩ := h
  exact (s.firstDenied_some k addr.toNat n _).2 ⟨j, rfl, hj, hd, hp⟩

/-! ## The checked read -/

/-- A read that is accessible answers the number in its bytes (R47). -/
theorem State.Accessible.memRead_eq {s : State} {addr : Word} {n : Nat} (h : s.Accessible .read addr n) :
    s.memRead addr n = .done (BitVec.ofNat 64 (s.numberAt addr.toNat n)) := by
  rcases s.memRead_cases addr n with ⟨-, hr⟩ | ⟨e, hf, -⟩
  · rw [hr, s.wordOfBytes_readBytes]
  · exact absurd hf (s.accessible_or_fails _ _ _ e h)

/-- A read that fails raises its error in the state as it was (R47). -/
theorem State.AccessFails.memRead_eq {s : State} {addr : Word} {n : Nat} {e : Err} (h : s.AccessFails .read addr n e) :
    s.memRead addr n = .raised e s := by
  rcases s.memRead_cases addr n with ⟨ha, -⟩ | ⟨e', hf, hr⟩
  · exact absurd h (s.accessible_or_fails _ _ _ e ha)
  · rw [hr, State.accessFails_unique h hf]

/-- Settles O9. -/
theorem checkedReadFollowsRule : Obligations.CheckedReadFollowsRule :=
  fun _ _ _ _ => ⟨State.Accessible.memRead_eq, fun _ => State.AccessFails.memRead_eq⟩

/-! ## The checked write -/

/-- A write that is accessible puts the low bytes of the value into memory (R48). -/
theorem State.Accessible.memWrite_eq {s : State} {addr : Word} {n : Nat} (h : s.Accessible .write addr n) (v : Word) :
    s.memWrite addr n v = .done (s.poke addr.toNat (bytesOfWord n v)) := by
  simp [State.memWrite, State.outOfBounds_eq_false h.1, h.firstDenied_eq]

/-- A write that leaves memory raises BadAddress in the state as it was (R46, R48). -/
theorem State.memWrite_eq_of_outOfBounds {s : State} {addr : Word} {n : Nat}
    (h : s.config.memorySize < addr.toNat + n) (v : Word) :
    s.memWrite addr n v = .raised (.badAddress addr) s := by
  simp [State.memWrite, State.outOfBounds_eq_true h]

/-- A write whose byte `j` is the lowest denied raises AccessViolation there; under PARTIAL_WRITE the `j` bytes below it
are written (R48). -/
theorem State.DeniedAt.memWrite_eq {s : State} {addr : Word} {n j : Nat} (h : s.DeniedAt .write addr n j) (v : Word) :
    s.memWrite addr n v = .raised (.accessViolation .write (addr + BitVec.ofNat 64 j))
      (if s.config.partialWrite then s.poke addr.toNat (bytesOfWord j v) else s) := by
  have ⟨hb, hj, _, _⟩ := h
  simp [State.memWrite, State.outOfBounds_eq_false hb, h.firstDenied_eq, BitVec.ofNat_add,
    take_bytesOfWord n j v hj.le]

/-- Putting the low `n` bytes of a value at `a` changes exactly those bytes and keeps the canonical form (R48). -/
theorem State.poke_bytesOfWord_spec {s : State} (hm : s.mem.wf = true) (a n : Nat) (v : Word) :
    ∃ m, Stored s.mem m a n v ∧ m.wf = true ∧ s.poke a (bytesOfWord n v) = { s with mem := m } :=
  ⟨_, s.mem.stored_writeBytes a n v hm, s.mem.wf_writeBytes a _ hm, rfl⟩

/-- Settles O10, case by case of the checked write. -/
theorem checkedWriteFollowsRule : Obligations.CheckedWriteFollowsRule := by
  intro s addr n v _ hm
  refine ⟨fun ha => ?_, fun hb => State.memWrite_eq_of_outOfBounds hb v, fun j hd => ⟨fun hp => ?_, fun hp => ?_⟩⟩
  · obtain ⟨m, hst, hwf, hpoke⟩ := State.poke_bytesOfWord_spec hm addr.toNat n v
    exact ⟨m, hst, hwf, by rw [ha.memWrite_eq, hpoke]⟩
  · simp [hd.memWrite_eq, hp]
  · obtain ⟨m, hst, hwf, hpoke⟩ := State.poke_bytesOfWord_spec hm addr.toNat j v
    exact ⟨m, hst, hwf, by rw [hd.memWrite_eq, if_pos hp, hpoke]⟩

/-! ## The fetch read -/

/-- A fetch that cannot read its 8 bytes raises the error of the read (R49). -/
theorem State.AccessFails.memFetch_eq {s : State} {addr : Word} {e : Err} (h : s.AccessFails .read addr 8 e) :
    s.memFetch addr = .raised e s := by
  rw [State.memFetch, h.memRead_eq, Attempt.bind_raised]

/-- A fetch that can read its 8 bytes answers their word, once EXECUTE is permitted at each under
FETCH_CHECKS_EXECUTE (R49). -/
theorem State.Accessible.memFetch_eq {s : State} {addr : Word} (h : s.Accessible .read addr 8)
    (hx : s.config.fetchChecksExecute = true → s.Accessible .execute addr 8) :
    s.memFetch addr = .done (s.word64 addr) := by
  rw [State.memFetch, h.memRead_eq, Attempt.bind_done]
  split
  · next hc => rw [(hx hc).firstDenied_eq]; rfl
  · rfl

/-- A fetch that can read its 8 bytes raises AccessViolation at the lowest one that denies EXECUTE (R49). -/
theorem State.Accessible.memFetch_eq_of_deniedAt {s : State} {addr : Word} {j : Nat} (h : s.Accessible .read addr 8)
    (hc : s.config.fetchChecksExecute = true) (hd : s.DeniedAt .execute addr 8 j) :
    s.memFetch addr = .raised (.accessViolation .execute (addr + BitVec.ofNat 64 j)) s := by
  simp [State.memFetch, h.memRead_eq, hc, hd.firstDenied_eq, BitVec.ofNat_add]

/-- Settles O11: READ is checked first, EXECUTE after it and only under the parameter. -/
theorem fetchReadFollowsRule : Obligations.FetchReadFollowsRule := by
  intro s addr
  refine ⟨fun e => State.AccessFails.memFetch_eq, fun h => ⟨fun hc => ?_, fun hc => ⟨fun hx => ?_, fun j => ?_⟩⟩⟩
  · exact h.memFetch_eq (by simp [hc])
  · exact h.memFetch_eq fun _ => hx
  · exact h.memFetch_eq_of_deniedAt hc

/-! ## Reading inside a stored value -/

/-- The `m` bytes from byte `k` of a stored value hold its bits `8(k+m)-1 .. 8k` (R51). -/
theorem State.numberAt_of_stored {s : State} {m₀ : Memory} {a n : Nat} {v : Word} (h : Stored m₀ s.mem a n v)
    (k m : Nat) (hkm : k + m ≤ n) : s.numberAt (a + k) m = (v.extractLsb' (8 * k) (8 * m)).toNat := by
  induction m generalizing k with
  | zero => simp [State.numberAt]
  | succ m ih =>
    have hbyte : s.mem.read (a + k) = v.extractLsb' (8 * k) 8 := by
      rw [h, if_pos (by omega), Nat.add_sub_cancel_left]
    have hrest := ih (k + 1) (by omega)
    rw [s.numberAt_succ, hbyte, Nat.add_assoc, hrest]
    simp only [BitVec.extractLsb'_toNat, Nat.shiftRight_eq_div_pow, Nat.mul_add, Nat.pow_add, ← Nat.div_div_eq_div_mul]
    rw [Nat.mul_comm (2 ^ (8 * m)), Nat.mod_mul]

/-- The address of a byte of an accessible access does not wrap: MEMORY_SIZE is below 2^64 (R8). -/
theorem State.Accessible.toNat_add_ofNat {s : State} {kind : Access} {a : Word} {n k : Nat} (h : s.Accessible kind a n)
    (hs : s.config.memorySizeOk = true) (hk : k ≤ n) : (a + BitVec.ofNat 64 k).toNat = a.toNat + k := by
  obtain ⟨-, hsize⟩ := of_decide_eq_true hs
  have hb := h.1
  rw [BitVec.toNat_add, BitVec.toNat_ofNat]
  omega

/-- Settles O12: the narrow read reads bytes of the stored value. -/
theorem narrowReadAfterWideWrite : Obligations.NarrowReadAfterWideWrite := by
  intro s a v k m hsize hm hkm hw hr
  refine ⟨_, hw.memWrite_eq v, ?_⟩
  have hr' : (s.poke a.toNat (bytesOfWord 8 v)).Accessible .read (a + BitVec.ofNat 64 k) m := hr
  have hst : Stored s.mem (s.poke a.toNat (bytesOfWord 8 v)).mem a.toNat 8 v := s.mem.stored_writeBytes a.toNat 8 v hm
  rw [hr'.memRead_eq, hw.toNat_add_ofNat hsize (by omega), State.numberAt_of_stored hst k m hkm, BitVec.ofNat_toNat]

end Sys2Proof.Machine
end

section
/-! The encoding: the opcode map read in both directions (R72), the operand a mode selects (R67), what the decoder accepts and
rejects (R73), and the word an instruction is encoded to (R65) with its place in memory (R66). -/

namespace Sys2Proof

/-! ## The opcode map -/

theorem Mnemonic.mem_all (m : Mnemonic) : m ∈ Mnemonic.all := by cases m <;> decide

/-- An injective map has every mnemonic, and no mnemonic and no opcode twice (R8). -/
theorem Config.opcodeMapOk_iff (c : Config) :
    c.opcodeMapOk = true ↔
      (c.opcodeMap.map Prod.fst).Nodup ∧ (c.opcodeMap.map Prod.snd).Nodup ∧ ∀ m, m ∈ c.opcodeMap.map Prod.fst := by
  simp only [Config.opcodeMapOk, Bool.and_eq_true, decide_eq_true_eq, List.all_eq_true, List.contains_iff_mem,
    Mnemonic.mem_all, forall_true_left, and_assoc]

/-- An opcode is unmapped exactly when no pair of the map has it. -/
theorem Config.mnemonicOf_eq_none_iff (c : Config) (op : BitVec 8) :
    c.mnemonicOf op = none ↔ ∀ p ∈ c.opcodeMap, p.2 ≠ op := by
  simp [Config.mnemonicOf, List.find?_eq_none]

/-- The mnemonic found for an opcode stands beside it in the map. -/
theorem Config.mem_of_mnemonicOf_eq_some {c : Config} {op : BitVec 8} {m : Mnemonic} (h : c.mnemonicOf op = some m) :
    (m, op) ∈ c.opcodeMap := by
  obtain ⟨p, hp, rfl⟩ := Option.map_eq_some_iff.1 h
  obtain rfl : p.2 = op := by simpa using List.find?_some hp
  exact List.mem_of_find?_eq_some hp

/-- An injective map has every mnemonic, beside the opcode that is looked up for it. -/
theorem Config.opcodeOf_mem {c : Config} (hc : c.opcodeMapOk = true) (m : Mnemonic) :
    (m, c.opcodeOf m) ∈ c.opcodeMap := by
  obtain ⟨-, -, hall⟩ := c.opcodeMapOk_iff.1 hc
  obtain ⟨q, hq, hqm⟩ := List.mem_map.1 (hall m)
  obtain ⟨p, hp⟩ := Option.isSome_iff_exists.1 <|
    List.find?_isSome (p := fun p : Mnemonic × BitVec 8 => p.1 == m).2 ⟨q, hq, beq_iff_eq.2 hqm⟩
  obtain rfl : p.1 = m := by simpa using List.find?_some hp
  rw [Config.opcodeOf, hp]
  exact List.mem_of_find?_eq_some hp

/-- In an injective map the two look-ups are inverse to each other (R75). -/
theorem Config.mnemonicOf_eq_some_iff {c : Config} (hc : c.opcodeMapOk = true) (op : BitVec 8) (m : Mnemonic) :
    c.mnemonicOf op = some m ↔ c.opcodeOf m = op := by
  have hmem := Config.opcodeOf_mem hc m
  obtain ⟨hfst, hsnd, -⟩ := c.opcodeMapOk_iff.1 hc
  constructor
  · intro h
    have heq := List.inj_on_of_nodup_map hfst hmem (Config.mem_of_mnemonicOf_eq_some h) rfl
    exact congrArg Prod.snd heq
  · rintro rfl
    cases hm : c.mnemonicOf (c.opcodeOf m) with
    | none => exact absurd rfl ((c.mnemonicOf_eq_none_iff _).1 hm _ hmem)
    | some m' =>
      have heq := List.inj_on_of_nodup_map hsnd (Config.mem_of_mnemonicOf_eq_some hm) hmem rfl
      exact congrArg (some ∘ Prod.fst) heq

/-- The opcodes of the default map, in ascending order: five blocks. -/
theorem defaultOpcodeMap_opcodes :
    defaultOpcodeMap.map (fun p => p.2.toNat) =
      List.range' 0x00 6 ++ List.range' 0x10 9 ++ List.range' 0x20 6 ++ List.range' 0x30 12 ++ List.range' 0x40 4 := by
  decide

/-- An opcode is mapped by default exactly when it lies in one of the five blocks (R72). -/
theorem mem_defaultOpcodeMap_iff (op : BitVec 8) :
    (∃ p ∈ defaultOpcodeMap, p.2 = op) ↔
      op.toNat < 0x06 ∨ (0x10 ≤ op.toNat ∧ op.toNat < 0x19) ∨ (0x20 ≤ op.toNat ∧ op.toNat < 0x26) ∨
        (0x30 ≤ op.toNat ∧ op.toNat < 0x3C) ∨ (0x40 ≤ op.toNat ∧ op.toNat < 0x44) := by
  have hmem : (∃ p ∈ defaultOpcodeMap, p.2 = op) ↔ op.toNat ∈ defaultOpcodeMap.map fun p => p.2.toNat := by
    simp only [List.mem_map, BitVec.toNat_inj]
  rw [hmem, defaultOpcodeMap_opcodes]
  simp only [List.mem_append, List.mem_range'_1]
  omega

/-! ## Operands -/

theorem operandOf_of_three_lt {mode : BitVec 4} (h : 3 < mode.toNat) (r : Reg) (imm : BitVec 32) :
    operandOf mode r imm = .undefinedMode mode := by
  unfold operandOf
  split_ifs with h0 h1 h2 h3
  · subst h0; contradiction
  · subst h1; contradiction
  · subst h2; contradiction
  · subst h3; contradiction
  · rfl

/-- The fields of a well-formed operand select the operand (R67). -/
theorem Operand.operandOf_fields {strict : Bool} {o : Operand} (h : o.wf strict = true) :
    operandOf o.modeField o.regField o.immField = o := by
  cases o with
  | register r => rfl
  | immediate v => rfl
  | memory a => rfl
  | registerIndirect r => rfl
  | undefinedMode m =>
    simp only [Operand.wf, Bool.and_eq_true, decide_eq_true_eq] at h
    exact operandOf_of_three_lt h.2 _ _

/-- A mode the decoder lets through selects a well-formed operand (R73). -/
theorem operandOf_wf {strict : Bool} {mode : BitVec 4} (h : strict = true → mode.toNat ≤ 3) (r : Reg)
    (imm : BitVec 32) : (operandOf mode r imm).wf strict = true := by
  by_cases hm : 3 < mode.toNat
  · have hs : strict = false := by
      cases strict with
      | false => rfl
      | true => exact absurd (h rfl) (by omega)
    have h4 : 4 ≤ mode.toNat := hm
    simpa [operandOf_of_three_lt hm, Operand.wf, hs] using h4
  · unfold operandOf
    split_ifs with h0 h1 h2 h3
    · rfl
    · rfl
    · rfl
    · rfl
    · bv_omega

/-- Under STRICT_DECODE a well-formed operand has one of the four modes (R73). -/
theorem Operand.modeField_le_of_wf {o : Operand} (h : o.wf true = true) : o.modeField.toNat ≤ 3 := by
  cases o with
  | register | immediate | memory | registerIndirect => simp [Operand.modeField]
  | undefinedMode m => simp [Operand.wf] at h

/-- The four modes as `operandByMode` numbers them. -/
theorem operandOf_ofNat {mode : Nat} (h : mode < 4) (r imm : Nat) :
    operandOf (BitVec.ofNat 4 mode) (Fin.ofNat 16 r) (BitVec.ofNat 32 imm) = operandByMode mode r imm := by
  match mode, h with
  | 0, _ => rfl
  | 1, _ => rfl
  | 2, _ => rfl
  | 3, _ => rfl

/-! ## Instructions and their fields -/

@[simp] theorem instrOf_mnemonic (m : Mnemonic) (d : Fields) : (instrOf m d).mnemonic = m := by cases m <;> rfl

/-- An instruction made of fields has no mode-resolved operand, or the one of role 1, or the one of role 2 (R70). -/
theorem instrOf_operand? (m : Mnemonic) (d : Fields) :
    (instrOf m d).operand? = none ∨ (instrOf m d).operand? = some d.role1 ∨ (instrOf m d).operand? = some d.role2 := by
  cases m with
  | nop | pop | inc | dec | swap | not | ret | hlt => exact .inl rfl
  | store | push | print => exact .inr (.inl rfl)
  | mov | load | add | sub | mul | div | mod | cmp | and | or | xor | shl | shr | jmp | jz | jnz | jc | jnc | jl | jle
  | jg | jge | loop | call | inPort | outPort => exact .inr (.inr rfl)

/-- Fields whose mode the decoder lets through make a well-formed instruction (R73). -/
theorem instrOf_wf {strict : Bool} {d : Fields} (h : strict = true → d.mode.toNat ≤ 3) (m : Mnemonic) :
    (instrOf m d).wf strict = true := by
  unfold Instr.wf
  rcases instrOf_operand? m d with ho | ho | ho <;> rw [ho]
  · exact operandOf_wf h d.reg1 d.imm
  · exact operandOf_wf h d.reg2 d.imm

/-- Every row of the opcode table is a mnemonic of the default map, with the instruction its fields make (R70, R72). -/
theorem opcodeRows_spec (size : Nat) (row : Nat × (Reg → Reg → Operand → Operand → Instr)) (h : row ∈ opcodeRows) :
    ∃ m, (Config.defaults size).mnemonicOf (BitVec.ofNat 8 row.1) = some m ∧
      ∀ d, instrOf m d = row.2 d.reg1 d.reg2 d.role1 d.role2 := by
  fin_cases h <;> exact ⟨_, rfl, fun _ => rfl⟩

/-! ## The encoder -/

/-- A word with a role 1 operand carries that operand and the `reg2` given. -/
theorem Config.cutFields_packRole1 (c : Config) (m : Mnemonic) {strict : Bool} {o : Operand} (h : o.wf strict = true)
    (r : Reg) : (cutFields (c.packRole1 m o r)).role1 = o ∧ (cutFields (c.packRole1 m o r)).reg2 = r := by
  rw [Config.packRole1, Laws.cutFields_packFields]
  exact ⟨Operand.operandOf_fields h, rfl⟩

/-- A word with a role 2 operand carries that operand and the `reg1` given. -/
theorem Config.cutFields_packRole2 (c : Config) (m : Mnemonic) (r : Reg) {strict : Bool} {o : Operand}
    (h : o.wf strict = true) :
    (cutFields (c.packRole2 m r o)).role2 = o ∧ (cutFields (c.packRole2 m r o)).reg1 = r := by
  rw [Config.packRole2, Laws.cutFields_packFields]
  exact ⟨Operand.operandOf_fields h, rfl⟩

/-- A word with no mode-resolved operand carries the registers given. -/
theorem Config.cutFields_packRegs (c : Config) (m : Mnemonic) (r1 r2 : Reg) :
    (cutFields (c.packRegs m r1 r2)).reg1 = r1 ∧ (cutFields (c.packRegs m r1 r2)).reg2 = r2 := by
  rw [Config.packRegs, Laws.cutFields_packFields]
  exact ⟨rfl, rfl⟩

/-- The fields of an instruction's word make the instruction again (R65, R70). -/
theorem instrOf_cutFields_encode (c : Config) {strict : Bool} {i : Instr} (h : i.wf strict = true) :
    instrOf i.mnemonic (cutFields (encode c i)) = i := by
  cases i with
  | nop | ret | hlt => rfl
  | pop r | inc r | dec r | not r => simp [instrOf, Instr.mnemonic, encode, Config.cutFields_packRegs]
  | swap ra rb => simp [instrOf, Instr.mnemonic, encode, Config.cutFields_packRegs]
  | store o r => simp [instrOf, Instr.mnemonic, encode, c.cutFields_packRole1 _ (o := o) h]
  | push o | print o => simp [instrOf, Instr.mnemonic, encode, c.cutFields_packRole1 _ (o := o) h]
  | mov r o | load r o | add r o | sub r o | mul r o | div r o | mod r o | cmp r o | and r o | or r o | xor r o | shl r o
  | shr r o | loop r o | inPort r o | outPort r o =>
    simp [instrOf, Instr.mnemonic, encode, c.cutFields_packRole2 _ _ (o := o) h]
  | jmp o | jz o | jnz o | jc o | jnc o | jl o | jle o | jg o | jge o | call o =>
    simp [instrOf, Instr.mnemonic, encode, c.cutFields_packRole2 _ _ (o := o) h]

/-- The word of every instruction carries its opcode, its mode and a zero reserved field, for each is packed from fields
(R65). -/
theorem encode_fields (i : Instr) : Laws.EncodingFields.Statement i := by
  cases i <;> exact Laws.encodingFields_of fun _ => ⟨_, _, _, Laws.cutFields_packFields ..⟩

/-- Under STRICT_DECODE the word of a well-formed instruction has one of the four modes. -/
theorem encode_mode_le {i : Instr} (h : i.wf true = true) (c : Config) : (cutFields (encode c i)).mode.toNat ≤ 3 := by
  obtain ⟨-, hmode, -⟩ := encode_fields i c
  rw [hmode]
  unfold Instr.wf at h
  cases ho : i.operand? with
  | none => decide
  | some o => exact Operand.modeField_le_of_wf (by simpa [ho] using h)

/-! ## The decoder -/

/-- What the decoder accepts: a mapped opcode and, under STRICT_DECODE, one of the four modes and a zero reserved field
(R73, R75). -/
theorem decode_eq_ok_iff (c : Config) (w : Word) (i : Instr) :
    decode c w = .ok i ↔
      ∃ m, c.mnemonicOf (cutFields w).opcode = some m ∧
        (c.strictDecode = true → (cutFields w).mode.toNat ≤ 3 ∧ (cutFields w).rsvd = 0) ∧ instrOf m (cutFields w) = i := by
  unfold decode decodeFields
  cases c.mnemonicOf (cutFields w).opcode with
  | none => simp
  | some m =>
    dsimp only
    split_ifs with hmode hrsvd
    · refine ⟨nofun, fun ⟨_, _, hlegal, _⟩ => ?_⟩
      exact absurd (hlegal hmode.1).1 (by omega)
    · refine ⟨nofun, fun ⟨_, _, hlegal, _⟩ => ?_⟩
      exact absurd (hlegal hrsvd.1).2 hrsvd.2
    · have hlegal : c.strictDecode = true → (cutFields w).mode.toNat ≤ 3 ∧ (cutFields w).rsvd = 0 := fun hs =>
        ⟨not_lt.1 fun h => hmode ⟨hs, h⟩, not_not.1 fun h => hrsvd ⟨hs, h⟩⟩
      simpa using fun _ => hlegal

/-- What the decoder rejects (R73 a to c): what it does not accept. -/
theorem decode_error_iff (c : Config) (w : Word) :
    (∃ e, decode c w = .error e) ↔
      c.mnemonicOf (cutFields w).opcode = none ∨
        (c.strictDecode = true ∧ (4 ≤ (cutFields w).mode.toNat ∨ (cutFields w).rsvd ≠ 0)) := by
  have hnot : (∃ e, decode c w = .error e) ↔ ¬ ∃ i, decode c w = .ok i := by cases decode c w <;> simp
  simp only [hnot, decode_eq_ok_iff]
  cases c.mnemonicOf (cutFields w).opcode with
  | none => simp
  | some m =>
    by_cases hs : c.strictDecode = true
    · simp [hs, Nat.lt_iff_add_one_le, imp_iff_not_or]
    · simp [hs]

/-- Settles O1: the word's fields pass the decoder's checks and make the instruction again. -/
theorem decodeOfEncodeIsIdentity : Obligations.DecodeOfEncodeIsIdentity := by
  intro c i hc hi
  obtain ⟨hop, -, hrsvd⟩ := encode_fields i c
  refine (decode_eq_ok_iff c _ i).2 ⟨i.mnemonic, ?_, fun hs => ⟨?_, hrsvd⟩, instrOf_cutFields_encode c hi⟩
  · exact (Config.mnemonicOf_eq_some_iff hc _ _).2 hop.symm
  · exact encode_mode_le (hs ▸ hi) c

/-- Settles O2, from what the decoder accepts. -/
theorem decodedInstructionIsWellFormed : Obligations.DecodedInstructionIsWellFormed := by
  intro c w i hc h
  obtain ⟨m, hm, hstrict, rfl⟩ := (decode_eq_ok_iff c w i).1 h
  refine ⟨instrOf_wf (fun hs => (hstrict hs).1) m, ?_⟩
  rw [instrOf_mnemonic]
  exact (Config.mnemonicOf_eq_some_iff hc _ m).1 hm

/-- A mode is one of the four exactly when its upper two bits, bits 55..54 of the word, are 0. -/
theorem cutFields_mode_le_iff (w : Word) : (cutFields w).mode.toNat ≤ 3 ↔ w.extractLsb' 54 2 = 0 := by
  rw [← BitVec.toNat_inj]
  simp only [cutFields, BitVec.extractLsb'_toNat, Nat.shiftRight_eq_div_pow, BitVec.ofNat_eq_ofNat, BitVec.toNat_ofNat]
  omega

/-- Settles O3: the rejections, the gaps between the default map's blocks, and the words legal by default. -/
theorem wordIsIllegalExactlyByRule : Obligations.WordIsIllegalExactlyByRule := by
  refine ⟨fun c w => ?_, fun op => ?_, fun size w => ?_⟩
  · rw [decode_error_iff, c.mnemonicOf_eq_none_iff]
    rfl
  · have hmem := mem_defaultOpcodeMap_iff op
    rw [← not_iff_not] at hmem
    push Not at hmem
    rw [hmem]
    omega
  · have hmapped : (∃ p ∈ defaultOpcodeMap, p.2 = w.extractLsb' 56 8) ↔
        ∃ m, (Config.defaults size).mnemonicOf (cutFields w).opcode = some m := by
      rw [← Option.ne_none_iff_exists', Ne, Config.mnemonicOf_eq_none_iff]
      push Not
      rfl
    simp only [decode_eq_ok_iff, hmapped, ← cutFields_mode_le_iff]
    constructor
    · rintro ⟨i, m, hm, hstrict, -⟩
      exact ⟨⟨m, hm⟩, hstrict rfl⟩
    · rintro ⟨⟨m, hm⟩, hlegal⟩
      exact ⟨_, m, hm, fun _ => hlegal, rfl⟩

/-! ## Words given field by field -/

/-- The fields of a word given as a sum of fields at their bits (R64). -/
theorem cutFields_ofNat {n op mode r1 r2 imm : Nat}
    (hn : n = op * 2 ^ 56 + mode * 2 ^ 52 + r1 * 2 ^ 48 + r2 * 2 ^ 44 + imm) (hmode : mode < 2 ^ 4) (h1 : r1 < 16)
    (h2 : r2 < 16) (himm : imm < 2 ^ 32) :
    cutFields (BitVec.ofNat 64 n) =
      { opcode := BitVec.ofNat 8 op, mode := BitVec.ofNat 4 mode, reg1 := Fin.ofNat 16 r1, reg2 := Fin.ofNat 16 r2,
        rsvd := 0, imm := BitVec.ofNat 32 imm } := by
  simp only [cutFields, Fields.mk.injEq, ← BitVec.toNat_inj, Fin.ext_iff, BitVec.val_toFin, BitVec.extractLsb'_toNat,
    BitVec.toNat_ofNat, BitVec.ofNat_eq_ofNat, Nat.shiftRight_eq_div_pow, Fin.val_ofNat]
  and_intros <;> omega

/-- Settles O4: the word has the row's opcode, a mode below 4 and a zero reserved field. -/
theorem everyOpcodeRowDecodes : Obligations.EveryOpcodeRowDecodes := by
  intro row hrow size mode r1 r2 imm hmode h1 h2 himm
  obtain ⟨m, hm, hinstr⟩ := opcodeRows_spec size row hrow
  rw [decode_eq_ok_iff, cutFields_ofNat rfl (by omega) h1 h2 himm]
  refine ⟨m, hm, fun _ => ⟨?_, rfl⟩, ?_⟩
  · rw [BitVec.toNat_ofNat]; omega
  · rw [hinstr]
    simp only [Fields.role1, Fields.role2, operandOf_ofNat hmode]

/-! ## The word in memory -/

/-- Byte `k` of a word stored at `a` is its bits `8*k+7 .. 8*k` (R50, R66). -/
theorem Machine.Memory.read_writeBytes_word {m : Machine.Memory} (hm : m.wf = true) (a k : Nat) (w : Word) (hk : k < 8) :
    (m.writeBytes a (bytesOfWord 8 w)).read (a + k) = w.extractLsb' (8 * k) 8 := by
  rw [m.stored_writeBytes a 8 w hm, if_pos (by omega), Nat.add_sub_cancel_left]

/-- A run of bits inside a run of bits. -/
theorem extractLsb'_extractLsb' {w len : Nat} (x : BitVec w) (start k n : Nat) (h : k + n ≤ len) :
    (x.extractLsb' start len).extractLsb' k n = x.extractLsb' (start + k) n := by
  apply BitVec.eq_of_getLsbD_eq
  intro i hi
  simp [hi, show k + i < len by omega, Nat.add_assoc]

/-- `reg2 : rsvd[11:8]` is byte 5 of the word (R66). -/
theorem cutFields_reg2_append_rsvd (w : Word) :
    BitVec.ofNat 4 (cutFields w).reg2.val ++ (cutFields w).rsvd.extractLsb' 8 4 = w.extractLsb' 40 8 := by
  have hreg : BitVec.ofNat 4 (cutFields w).reg2.val = w.extractLsb' 44 4 :=
    (BitVec.ofNat_toNat 4 _).trans (BitVec.setWidth_eq _)
  rw [hreg, cutFields, extractLsb'_extractLsb' w 32 8 4 (by decide)]
  exact BitVec.extractLsb'_append_extractLsb'_eq_extractLsb' rfl

/-- `mode : reg1` is byte 6 of the word (R66). -/
theorem cutFields_mode_append_reg1 (w : Word) :
    (cutFields w).mode ++ BitVec.ofNat 4 (cutFields w).reg1.val = w.extractLsb' 48 8 := by
  have hreg : BitVec.ofNat 4 (cutFields w).reg1.val = w.extractLsb' 48 4 :=
    (BitVec.ofNat_toNat 4 _).trans (BitVec.setWidth_eq _)
  rw [hreg]
  exact BitVec.extractLsb'_append_extractLsb'_eq_extractLsb' rfl

/-- Settles O6, byte by byte. -/
theorem instructionWordLiesLittleEndian : Obligations.InstructionWordLiesLittleEndian := by
  refine ⟨fun m a w hm => ?_, fun size => ?_, by decide⟩
  · have hbyte := fun k => Machine.Memory.read_writeBytes_word hm a k w
    refine ⟨hbyte 0 (by decide), hbyte 1 (by decide), hbyte 2 (by decide), hbyte 3 (by decide), ?_, ?_, ?_,
      hbyte 7 (by decide)⟩
    · rw [hbyte 4 (by decide), cutFields, extractLsb'_extractLsb' w 32 0 8 (by decide)]
    · rw [hbyte 5 (by decide), cutFields_reg2_append_rsvd]
    · rw [hbyte 6 (by decide), cutFields_mode_append_reg1]
  · show packFields 0x01 1 0 0 42 = 0x011000000000002A
    decide

end Sys2Proof
end

section
/-! Operands: what resolving one answers (R68) and where writing one back goes (R69). -/

namespace Sys2Proof.Machine

/-- An operand that resolves reads as the value it denotes (R68). -/
theorem State.Resolves.readOperand_eq {s : State} {o : Operand} (h : s.Resolves o) :
    s.readOperand o = .done (s.operandValue o) := by
  cases o with
  | register r => rfl
  | immediate v => rfl
  | memory a => exact State.Accessible.memRead_eq h
  | registerIndirect r => exact State.Accessible.memRead_eq h
  | undefinedMode m => exact h.elim

/-- An operand that fails raises its error and leaves the state as it was (R68). -/
theorem State.OperandFails.readOperand_eq {s : State} {o : Operand} {e : Err} (h : s.OperandFails e o) :
    s.readOperand o = .raised e s := by
  cases o with
  | register r => exact h.elim
  | immediate v => exact h.elim
  | memory a => exact State.AccessFails.memRead_eq h
  | registerIndirect r => exact State.AccessFails.memRead_eq h
  | undefinedMode m => exact congrArg (Attempt.raised · s) h.symm

/-- Settles O13, form by form of the operand. -/
theorem operandResolutionFollowsRule : Obligations.OperandResolutionFollowsRule :=
  fun _ _ => ⟨State.Resolves.readOperand_eq, fun _ => State.OperandFails.readOperand_eq⟩

/-- Settles O14: each mode is a branch of the write-back; the MEMORY address is the immediate zero-extended. -/
theorem operandWriteBackFollowsRule : Obligations.OperandWriteBackFollowsRule := by
  intro s r reg1 q imm mode v
  refine ⟨rfl, rfl, ?_, rfl, rfl⟩
  rw [BitVec.ofNat_toNat]
  rfl

end Sys2Proof.Machine
end

section
/-! The step of the controller, case by case (R76): a core that does not run, a failed fetch, an illegal word, a legal one. -/

namespace Sys2Proof.Machine

/-- A core that does not run does nothing (R25, R155). -/
theorem step_of_not_running {s : State} (hr : s.running = false) : step s = .next s := by
  simp [step, State.phase, hr]

section
variable {s : State} (hr : s.running = true) (hw : s.portWait = none)
include hr hw

/-- A failed fetch takes its error, with `pc` as it was (R132). -/
theorem step_of_memFetch_raised {e : Err} {left : State} (hf : s.memFetch s.pc = .raised e left) :
    step s = .next (s.haltedBy e) := by
  simp [step, State.phase, State.fetch, hr, hw, hf, ← State.raise_eq_haltedBy]

/-- An illegal word takes IllegalOpcode of its address, with `pc` advanced (R134). -/
theorem step_of_decode_error {w : Word} {x : Illegal} (hf : s.memFetch s.pc = .done w)
    (hd : decode s.config w = .error x) :
    step s = .next ({ s with pc := s.pc + 8 }.haltedBy (.illegalOpcode s.pc)) := by
  simp [step, State.phase, State.fetch, hr, hw, hf, hd, ← State.raise_eq_haltedBy]

/-- A legal word is executed in the state with `pc` advanced (R76). -/
theorem step_of_decode_ok {w : Word} {i : Instr} (hf : s.memFetch s.pc = .done w) (hd : decode s.config w = .ok i) :
    step s = exec i { s with pc := s.pc + 8 } := by
  simp [step, State.phase, State.fetch, hr, hw, hf, hd]

end

/-- A fetch that succeeds answers the word at `pc` (R49). -/
theorem State.Fetches.memFetch_eq {s : State} (h : s.Fetches) : s.memFetch s.pc = .done (s.word64 s.pc) := by
  obtain ⟨-, -, hread, hexec⟩ := h
  exact hread.memFetch_eq hexec

/-- Settles O47: its parts are the cases of the step. -/
theorem stepFollowsRule : Obligations.StepFollowsRule := fun _ =>
  ⟨step_of_not_running, fun hr hw =>
    ⟨fun _ _ => step_of_memFetch_raised hr hw, fun _ hf =>
      ⟨fun _ => step_of_decode_error hr hw hf, fun _ => step_of_decode_ok hr hw hf⟩⟩⟩

/-- Settles O46: the fetch answers the word at `pc`, and a legal word is executed. -/
theorem stepRunsDecodedInstruction : Obligations.StepRunsDecodedInstruction := by
  intro s i h hd
  have ⟨hr, hw, _, _⟩ := h
  exact step_of_decode_ok hr hw h.memFetch_eq hd

end Sys2Proof.Machine
end

section
/-! Data movement (R81 to R85): what an instruction comes to once its operand has resolved, when its own data access goes
through and when that access fails (R132, R136). -/

namespace Sys2Proof.Machine

/-! ## The data accesses -/

/-- An error raised with the state as it was is taken there (R132). -/
theorem Attempt.finish_raised_eq_haltedBy (e : Err) (s : State) :
    (Attempt.raised e s).finish = .next (s.haltedBy e) := by
  rw [Attempt.finish_raised, s.raise_eq_haltedBy]

/-- A write that is accessible stores the value and leaves everything but memory (R48). -/
theorem State.Accessible.memWrite_stores {s : State} {addr : Word} {n : Nat} (h : s.Accessible .write addr n)
    (hm : s.mem.wf = true) (v : Word) :
    ∃ m, Stored s.mem m addr.toNat n v ∧ m.wf = true ∧ s.memWrite addr n v = .done { s with mem := m } := by
  rw [h.memWrite_eq]
  obtain ⟨m, hst, hwf, hpoke⟩ := State.poke_bytesOfWord_spec hm addr.toNat n v
  exact ⟨m, hst, hwf, congrArg Attempt.done hpoke⟩

/-- Without PARTIAL_WRITE a write that fails leaves the state as it was (R48). -/
theorem State.AccessFails.memWrite_eq {s : State} {addr : Word} {n : Nat} {e : Err} (h : s.AccessFails .write addr n e)
    (hp : s.config.partialWrite = false) (v : Word) : s.memWrite addr n v = .raised e s := by
  rcases h with ⟨hb, rfl⟩ | ⟨j, hd, rfl⟩
  · exact State.memWrite_eq_of_outOfBounds hb v
  · simp [hd.memWrite_eq, hp]

/-- A push that goes through stores the value at the new `sp` (R79). -/
theorem State.Accessible.push_stores {s : State} (h : s.Accessible .write (s.sp - 8) 8) (hm : s.mem.wf = true)
    (v : Word) :
    ∃ m, Stored s.mem m (s.sp - 8).toNat 8 v ∧ m.wf = true ∧ s.push v = .done { s with mem := m, sp := s.sp - 8 } := by
  obtain ⟨m, hst, hwf, hw⟩ := h.memWrite_stores hm v
  exact ⟨m, hst, hwf, by rw [State.push, hw, Attempt.bind_done]⟩

/-- Without PARTIAL_WRITE a push that fails leaves the state as it was (R79). -/
theorem State.AccessFails.push_eq {s : State} {e : Err} (h : s.AccessFails .write (s.sp - 8) 8 e)
    (hp : s.config.partialWrite = false) (v : Word) : s.push v = .raised e s := by
  rw [State.push, h.memWrite_eq hp, Attempt.bind_raised]

/-- A pop that goes through answers the word at `sp` (R80). -/
theorem State.Accessible.pop_eq {s : State} (h : s.Accessible .read s.sp 8) :
    s.pop = .done (s.word64 s.sp, { s with sp := s.sp + 8 }) := by
  rw [State.pop, h.memRead_eq, Attempt.bind_done, State.word64]

/-- A pop that fails leaves the state as it was (R80). -/
theorem State.AccessFails.pop_eq {s : State} {e : Err} (h : s.AccessFails .read s.sp 8 e) : s.pop = .raised e s := by
  rw [State.pop, h.memRead_eq, Attempt.bind_raised]

/-! ## Instructions whose operand resolves -/

/-- An instruction whose operand resolves goes on with the value it denotes (R68). -/
theorem State.Resolves.withOperand_eq {s : State} {o : Operand} (h : s.Resolves o) (k : Word → Attempt State) :
    s.withOperand o k = (k (s.operandValue o)).finish := by
  rw [State.withOperand, h.readOperand_eq, Attempt.bind_done]

/-- MOV under MOV_WRITEBACK = REG1 writes the value to `x[rd]` (R81). -/
theorem State.Resolves.exec_mov_reg1 {s : State} {src : Operand} (h : s.Resolves src)
    (hc : s.config.movWriteBack = .reg1) (rd : Reg) :
    exec (.mov rd src) s = .next (s.setReg rd (s.operandValue src)) := by
  rw [exec, execMov, h.withOperand_eq, hc, Attempt.finish_done]

/-- MOV under MOV_WRITEBACK = SYMMETRIC writes the value back through its own operand (R69, R81). -/
theorem State.Resolves.exec_mov_symmetric {s : State} {src : Operand} (h : s.Resolves src)
    (hc : s.config.movWriteBack = .symmetric) (rd : Reg) :
    exec (.mov rd src) s = (s.writeOperand src rd rd (s.operandValue src)).finish := by
  rw [exec, execMov, h.withOperand_eq, hc]

/-- LOAD reads at the value of its operand (R82). -/
theorem State.Resolves.exec_load {s : State} {addr : Operand} (h : s.Resolves addr) (rd : Reg) :
    exec (.load rd addr) s =
      ((s.memRead (s.operandValue addr) 8).bind fun v => .done (s.setReg rd v)).finish :=
  h.withOperand_eq _

/-- STORE writes `x[rs]` at the value of its operand (R83). -/
theorem State.Resolves.exec_store {s : State} {addr : Operand} (h : s.Resolves addr) (rs : Reg) :
    exec (.store addr rs) s = (s.memWrite (s.operandValue addr) 8 (s.reg rs)).finish :=
  h.withOperand_eq _

/-- PUSH pushes the value of its operand (R84). -/
theorem State.Resolves.exec_push {s : State} {src : Operand} (h : s.Resolves src) :
    exec (.push src) s = (s.push (s.operandValue src)).finish :=
  h.withOperand_eq _

/-- CALL pushes `pc` and goes to the value of its operand (R118). -/
theorem State.Resolves.exec_call {s : State} {tgt : Operand} (h : s.Resolves tgt) :
    exec (.call tgt) s = ((s.push s.pc).bind fun s1 => .done { s1 with pc := s.operandValue tgt }).finish :=
  h.withOperand_eq _

/-! ## MOV -/

/-- A write-back that is not to memory writes `x[rd]`: the operand names a register or is an immediate (R69). -/
theorem State.writeOperand_of_operandAddr_eq_none {s : State} {o : Operand} (h : s.Resolves o)
    (ha : s.operandAddr o = none) (rd : Reg) (v : Word) : s.writeOperand o rd rd v = .done (s.setReg rd v) := by
  cases o with
  | register r => rfl
  | immediate w => rfl
  | memory a => cases ha
  | registerIndirect r => cases ha
  | undefinedMode m => exact h.elim

/-- MOV under MOV_WRITEBACK = SYMMETRIC with a memory operand stores the value at the write-back address `a` (R69, R81). -/
theorem State.Resolves.exec_mov_stores {s : State} {src : Operand} (h : s.Resolves src)
    (hc : s.config.movWriteBack = .symmetric) {rd : Reg} {a : Word}
    (hback : ∀ v, s.writeOperand src rd rd v = s.memWrite a 8 v) (hm : s.mem.wf = true) (ha : s.Accessible .write a 8) :
    ∃ m, Stored s.mem m a.toNat 8 (s.operandValue src) ∧ m.wf = true ∧
      exec (.mov rd src) s = .next { s with mem := m } := by
  obtain ⟨m, hst, hwf, hw⟩ := ha.memWrite_stores hm (s.operandValue src)
  exact ⟨m, hst, hwf, by rw [h.exec_mov_symmetric hc, hback, hw, Attempt.finish_done]⟩

/-- MOV under MOV_WRITEBACK = SYMMETRIC takes the error of its write-back to the address `a` (R69, R81). -/
theorem State.Resolves.exec_mov_of_accessFails {s : State} {src : Operand} (h : s.Resolves src)
    (hc : s.config.movWriteBack = .symmetric) {rd : Reg} {a : Word} {e : Err}
    (hback : ∀ v, s.writeOperand src rd rd v = s.memWrite a 8 v) (hp : s.config.partialWrite = false)
    (ha : s.AccessFails .write a 8 e) : exec (.mov rd src) s = .next (s.haltedBy e) := by
  rw [h.exec_mov_symmetric hc, hback, ha.memWrite_eq hp, Attempt.finish_raised_eq_haltedBy]

/-- Settles O16: the two settings of MOV_WRITEBACK and, under SYMMETRIC, the forms of the operand. -/
theorem movCompletes : Obligations.MovCompletes := by
  intro rd src s h
  refine ⟨fun hc => h.exec_mov_reg1 hc rd, fun hc => ⟨fun hnone => ?_, fun a hsrc hm ha => ?_, fun q hsrc hm ha => ?_⟩⟩
  · rw [h.exec_mov_symmetric hc, State.writeOperand_of_operandAddr_eq_none h hnone, Attempt.finish_done]
    rfl
  · have hnum : (a.setWidth 64).toNat = a.toNat := BitVec.toNat_setWidth_of_le (by decide)
    rw [← hnum]
    exact h.exec_mov_stores hc (fun _ => hsrc ▸ rfl) hm ha
  · exact h.exec_mov_stores hc (fun _ => hsrc ▸ rfl) hm ha

/-! ## LOAD, STORE, PUSH, POP -/

/-- Settles O17: the read answers the word, which is written to `x[rd]`. -/
theorem loadCompletes : Obligations.LoadCompletes := by
  intro rd addr s h ha
  rw [h.exec_load, ha.memRead_eq, Attempt.bind_done, Attempt.finish_done]
  rfl

/-- Settles O18: the write stores the register. -/
theorem storeCompletes : Obligations.StoreCompletes := by
  intro addr rs s hm h ha
  obtain ⟨m, hst, hwf, hw⟩ := ha.memWrite_stores hm (s.reg rs)
  exact ⟨m, hst, hwf, by rw [h.exec_store, hw, Attempt.finish_done]⟩

/-- Settles O19: the push stores the operand's value, which is read before `sp` moves. -/
theorem pushCompletes : Obligations.PushCompletes := by
  intro src s hm h ha
  obtain ⟨m, hst, hwf, hpush⟩ := ha.push_stores hm (s.operandValue src)
  exact ⟨m, hst, hwf, by rw [h.exec_push, hpush, Attempt.finish_done]⟩

/-- Settles O20: the pop answers the word at `sp`, which is written to `x[rd]`. -/
theorem popCompletes : Obligations.PopCompletes := by
  intro rd s ha
  rw [exec, execPop, ha.pop_eq, Attempt.bind_done, Attempt.finish_done]
  rfl

/-! ## Errors of the data access -/

/-- POP takes the error of its read (R85). -/
theorem State.AccessFails.exec_pop {s : State} {e : Err} (h : s.AccessFails .read s.sp 8 e) (rd : Reg) :
    exec (.pop rd) s = .next (s.haltedBy e) := by
  rw [exec, execPop, h.pop_eq, Attempt.bind_raised, Attempt.finish_raised_eq_haltedBy]

/-- RET takes the error of its read (R119). -/
theorem State.AccessFails.exec_ret {s : State} {e : Err} (h : s.AccessFails .read s.sp 8 e) :
    exec .ret s = .next (s.haltedBy e) := by
  rw [exec, execRet, h.pop_eq, Attempt.bind_raised, Attempt.finish_raised_eq_haltedBy]

/-- Settles O44, instruction by instruction: the access raises in the state as it was, and the error is taken there. -/
theorem dataAccessErrorIsTaken : Obligations.DataAccessErrorIsTaken := by
  intro r o e s
  refine ⟨fun hf => ⟨hf.exec_pop r, hf.exec_ret⟩, fun h => ⟨fun hload => ?_, fun hp =>
    ⟨fun hstore => ?_, fun hpush => ⟨?_, ?_⟩, fun hc => ⟨fun a ho hback => ?_, fun q ho hback => ?_⟩⟩⟩⟩
  · rw [h.exec_load, hload.memRead_eq, Attempt.bind_raised, Attempt.finish_raised_eq_haltedBy]
  · rw [h.exec_store, hstore.memWrite_eq hp, Attempt.finish_raised_eq_haltedBy]
  · rw [h.exec_push, hpush.push_eq hp, Attempt.finish_raised_eq_haltedBy]
  · rw [h.exec_call, hpush.push_eq hp, Attempt.bind_raised, Attempt.finish_raised_eq_haltedBy]
  · exact h.exec_mov_of_accessFails hc (fun _ => ho ▸ rfl) hp hback
  · exact h.exec_mov_of_accessFails hc (fun _ => ho ▸ rfl) hp hback

end Sys2Proof.Machine
end

section
/-! Arithmetic (R86 to R96): what the ALU answers, on the numbers its words stand for, and what each instruction comes to
once its operand has resolved. -/

namespace Sys2Proof.Machine

/-! ## The ALU on numbers -/

/-- The sum modulo 2^64 (R88). -/
theorem aluAdd_eq (a b : Word) :
    aluAdd a b = ⟨BitVec.ofNat 64 (a.toNat + b.toNat), decide (2 ^ 64 ≤ a.toNat + b.toNat), false⟩ :=
  rfl

/-- A difference modulo 2^64, without a negative number. -/
theorem word_sub_eq_ofNat (a b : Word) : a - b = BitVec.ofNat 64 (2 ^ 64 + a.toNat - b.toNat) := by
  rw [BitVec.sub_def, Nat.sub_add_comm b.isLt.le]

/-- The difference modulo 2^64, with the borrow as carry (R89). -/
theorem aluSub_eq (a b : Word) :
    aluSub a b = ⟨BitVec.ofNat 64 (2 ^ 64 + a.toNat - b.toNat), decide (a.toNat < b.toNat), false⟩ := by
  rw [aluSub, word_sub_eq_ofNat]

/-- The low half divided by `b` gives `a` back exactly when the full product fits in a word (R90). -/
theorem aluMul_overflow_iff (a b : Word) :
    (b ≠ 0 ∧ (a * b).toNat / b.toNat ≠ a.toNat) ↔ 2 ^ 64 ≤ a.toNat * b.toNat := by
  rw [BitVec.toNat_mul]
  constructor
  · rintro ⟨hb, hq⟩
    by_contra hfit
    have hpos : 0 < b.toNat := Nat.pos_of_ne_zero (BitVec.toNat_ne_iff_ne.2 hb)
    rw [Nat.mod_eq_of_lt (not_le.1 hfit), Nat.mul_div_cancel _ hpos] at hq
    exact hq rfl
  · intro hbig
    have hb : b ≠ 0 := by rintro rfl; simp at hbig
    have hlow : a.toNat * b.toNat % 2 ^ 64 < a.toNat * b.toNat := (Nat.mod_lt _ (by decide)).trans_le hbig
    exact ⟨hb, (Nat.div_lt_of_lt_mul (Nat.mul_comm _ _ ▸ hlow)).ne⟩

/-- The low half of the product; overflow says that the full product does not fit (R90). -/
theorem aluMul_eq (a b : Word) :
    aluMul a b = ⟨BitVec.ofNat 64 (a.toNat * b.toNat), false, decide (2 ^ 64 ≤ a.toNat * b.toNat)⟩ := by
  rw [aluMul, decide_eq_decide.2 (aluMul_overflow_iff a b)]
  rfl

/-- What MOD subtracts from the dividend leaves the remainder (R92). -/
theorem aluMod_eq (a b : Word) : aluMod a b = ⟨BitVec.ofNat 64 (a.toNat % b.toNat), false, false⟩ := by
  have hresult : a - b * BitVec.ofNat 64 (a.toNat / b.toNat) = BitVec.ofNat 64 (a.toNat % b.toNat) := by
    rw [sub_eq_iff_eq_add]
    calc a = BitVec.ofNat 64 (a.toNat % b.toNat + b.toNat * (a.toNat / b.toNat)) := by
            rw [Nat.mod_add_div, BitVec.ofNat_toNat, BitVec.setWidth_eq]
      _ = BitVec.ofNat 64 (a.toNat % b.toNat) + b * BitVec.ofNat 64 (a.toNat / b.toNat) := by
            rw [BitVec.ofNat_add, BitVec.ofNat_mul, BitVec.ofNat_toNat, BitVec.setWidth_eq]
  rw [aluMod, hresult]

theorem word_toNat_one : (1 : Word).toNat = 1 := rfl

/-- Adding 1 carries out of the largest word alone (R93). -/
theorem aluAdd_one (a : Word) :
    aluAdd a 1 = ⟨BitVec.ofNat 64 (a.toNat + 1), decide (a.toNat = 2 ^ 64 - 1), false⟩ := by
  have hcarry : 2 ^ 64 ≤ a.toNat + 1 ↔ a.toNat = 2 ^ 64 - 1 := by omega
  rw [aluAdd_eq, word_toNat_one, decide_eq_decide.2 hcarry]

/-- Subtracting 1 borrows from 0 alone (R94). -/
theorem aluSub_one (a : Word) :
    aluSub a 1 = ⟨BitVec.ofNat 64 (2 ^ 64 + a.toNat - 1), decide (a.toNat = 0), false⟩ := by
  rw [aluSub_eq, word_toNat_one, decide_eq_decide.2 Nat.lt_one_iff]

/-! ## Writing what the ALU answers -/

/-- A result written with its flags, field by field (R31). -/
theorem State.writeResult_eq_afterResult (s : State) (rd : Reg) (out : AluResult) :
    s.writeResult rd out = s.afterResult rd out.result out.carry out.overflow := by
  simp only [State.writeResult, State.setAluFlags, State.setFlags, Flags.derive_eq, State.setReg, State.afterResult]

/-- An ALU instruction whose operand resolves writes what the ALU answers (R86). -/
theorem State.Resolves.aluOp_eq {s : State} {src : Operand} (h : s.Resolves src) {f : Word → Word → AluResult}
    {rd : Reg} {out : AluResult} (hf : f s.regs[rd.val] (s.operandValue src) = out) :
    s.aluOp f rd src = .next (s.afterResult rd out.result out.carry out.overflow) := by
  rw [State.aluOp, h.withOperand_eq, Attempt.finish_done, State.reg, hf, s.writeResult_eq_afterResult]

/-- A division by a divisor that is not 0 writes what the ALU answers (R91, R92). -/
theorem State.Resolves.divisionOp_eq {s : State} {src : Operand} (h : s.Resolves src)
    (h0 : (s.operandValue src).toNat ≠ 0) {f : Word → Word → AluResult} {rd : Reg} {out : AluResult}
    (hf : f s.regs[rd.val] (s.operandValue src) = out) :
    s.divisionOp f rd src = .next (s.afterResult rd out.result out.carry out.overflow) := by
  have hne : s.operandValue src ≠ 0 := fun hz => h0 (congrArg BitVec.toNat hz)
  rw [State.divisionOp, h.withOperand_eq, if_neg hne, Attempt.finish_done, State.reg, hf, s.writeResult_eq_afterResult]

/-- A division by 0 takes DivisionByZero of its own address and writes nothing else (R87 f). -/
theorem State.Resolves.divisionOp_by_zero {s : State} {src : Operand} (h : s.Resolves src)
    (h0 : (s.operandValue src).toNat = 0) (f : Word → Word → AluResult) (rd : Reg) :
    s.divisionOp f rd src = .next (s.haltedBy (.divisionByZero (s.pc - 8))) := by
  have hz : s.operandValue src = 0 := BitVec.toNat_inj.1 h0
  rw [State.divisionOp, h.withOperand_eq, if_pos hz, Attempt.finish_raised_eq_haltedBy, State.instrAddr]

/-! ## ADD, SUB, MUL, DIV, MOD -/

/-- Settles O21. -/
theorem addCompletes : Obligations.AddCompletes :=
  fun _ _ _ h => h.aluOp_eq (aluAdd_eq _ _)

/-- Settles O22. -/
theorem subCompletes : Obligations.SubCompletes :=
  fun _ _ _ h => h.aluOp_eq (aluSub_eq _ _)

/-- Settles O23. -/
theorem mulCompletes : Obligations.MulCompletes :=
  fun _ _ _ h => h.aluOp_eq (aluMul_eq _ _)

/-- Settles O24: the ALU's quotient is the floor by definition, its remainder by `aluMod_eq`. -/
theorem divModComplete : Obligations.DivModComplete :=
  fun _ _ _ h h0 => ⟨h.divisionOp_eq h0 rfl, h.divisionOp_eq h0 (aluMod_eq _ _)⟩

/-- Settles O25. -/
theorem divisionByZeroIsTaken : Obligations.DivisionByZeroIsTaken :=
  fun rd _ _ h h0 => ⟨h.divisionOp_by_zero h0 aluDiv rd, h.divisionOp_by_zero h0 aluMod rd⟩

/-! ## INC, DEC -/

/-- Settles O26: ADD and SUB with the operand 1. -/
theorem incDecComplete : Obligations.IncDecComplete := by
  intro rd s
  constructor
  · rw [exec, execInc, aluAdd_one, s.writeResult_eq_afterResult, State.reg]
  · rw [exec, execDec, aluSub_one, s.writeResult_eq_afterResult, State.reg]

/-! ## CMP -/

/-- CMP derives its flags from the difference and writes nothing else (R95). -/
theorem State.Resolves.exec_cmp {s : State} {src : Operand} (h : s.Resolves src) (ra : Reg) :
    exec (.cmp ra src) s = .next (s.setAluFlags (aluSub s.regs[ra.val] (s.operandValue src))) :=
  h.withOperand_eq _

/-- SUB writes the difference and derives the same flags (R89). -/
theorem State.Resolves.exec_sub {s : State} {src : Operand} (h : s.Resolves src) (rd : Reg) :
    exec (.sub rd src) s = .next (s.writeResult rd (aluSub s.regs[rd.val] (s.operandValue src))) :=
  h.withOperand_eq _

/-- The flags of a difference: Z says that the numbers are equal, C that the first is less (R95). -/
theorem State.setAluFlags_aluSub_flags (s : State) (a b : Word) :
    (s.setAluFlags (aluSub a b)).flags =
      { z := decide (a.toNat = b.toNat)
        c := decide (a.toNat < b.toNat)
        n := (BitVec.ofNat 64 (2 ^ 64 + a.toNat - b.toNat)).getLsbD 63
        v := false
        i := s.flags.i } := by
  have hz : a - b = 0 ↔ a.toNat = b.toNat := sub_eq_zero.trans BitVec.toNat_inj.symm
  rw [State.setAluFlags_flags, Flags.derive, aluSub, decide_eq_decide.2 hz, word_sub_eq_ofNat]

/-- Settles O27: both derive their flags from the same answer of the ALU. -/
theorem cmpCompletesWithFlagsOfSub : Obligations.CmpCompletesWithFlagsOfSub := by
  intro ra src s h
  exact ⟨_, _, h.exec_cmp ra, h.exec_sub ra, rfl, s.setAluFlags_aluSub_flags _ _⟩

/-! ## SWAP -/

theorem State.swapRegs_reg_right (s : State) (ra rb : Reg) : (s.swapRegs ra rb).reg rb = s.reg ra :=
  State.reg_setReg_same _ rb _

/-- The first register gets the second, also when they are one register (R96). -/
theorem State.swapRegs_reg_left (s : State) (ra rb : Reg) : (s.swapRegs ra rb).reg ra = s.reg rb := by
  rw [State.swapRegs, State.reg_setReg]
  split
  · next heq => rw [heq]
  · exact s.reg_setReg_same ra _

theorem State.swapRegs_reg_of_ne (s : State) {ra rb q : Reg} (ha : q ≠ ra) (hb : q ≠ rb) :
    (s.swapRegs ra rb).reg q = s.reg q := by
  rw [State.swapRegs, State.reg_setReg_ne _ _ hb, s.reg_setReg_ne _ ha]

/-- Settles O28: the registers by the exchange, the flags from the new first register. -/
theorem swapCompletes : Obligations.SwapCompletes := by
  intro ra rb s
  refine ⟨_, rfl, s.swapRegs_reg_left ra rb, s.swapRegs_reg_right ra rb, fun q => s.swapRegs_reg_of_ne, ?_⟩
  simp only [s.swapRegs_reg_left, State.setFlags, Flags.derive_eq]
  rfl

end Sys2Proof.Machine
end

section
/-! Logic and shifts (R97 to R103): what the operations on words come to on the numbers the words stand for, and what each
instruction comes to once its operand has resolved. -/

namespace Sys2Proof.Machine

/-! ## AND, OR, XOR, NOT -/

/-- A word is known by the number it stands for. -/
theorem word_eq_ofNat {a : Word} {n : Nat} (h : a.toNat = n) : a = BitVec.ofNat 64 n :=
  (BitVec.toNat_eq_nat.1 h).2

/-- A logical result written with its flags, field by field; C and V are cleared, or kept under LOGIC_PRESERVES_CV (R32). -/
theorem State.writeLogic_eq_afterResult (s : State) (rd : Reg) (r : Word) :
    s.writeLogic rd r =
      s.afterResult rd r (s.config.logicPreservesCV && s.flags.c) (s.config.logicPreservesCV && s.flags.v) := by
  rw [State.writeLogic, State.setFlagsLogic_eq]
  exact s.writeResult_eq_afterResult rd ⟨r, s.config.logicPreservesCV && s.flags.c, s.config.logicPreservesCV && s.flags.v⟩

/-- A logical instruction whose operand resolves writes the result of its operation (R97). -/
theorem State.Resolves.logicOp_eq {s : State} {src : Operand} (h : s.Resolves src) {f : Word → Word → Word}
    {rd : Reg} {r : Word} (hf : f s.regs[rd.val] (s.operandValue src) = r) :
    s.logicOp f rd src =
      .next (s.afterResult rd r (s.config.logicPreservesCV && s.flags.c) (s.config.logicPreservesCV && s.flags.v)) := by
  rw [State.logicOp, h.withOperand_eq, Attempt.finish_done, State.reg, hf, s.writeLogic_eq_afterResult]

/-- NOT needs no operand to resolve (R101). -/
theorem exec_not (rd : Reg) (s : State) :
    exec (.not rd) s =
      .next (s.afterResult rd (BitVec.ofNat 64 (2 ^ 64 - 1 - (s.regs[rd.val]).toNat))
        (s.config.logicPreservesCV && s.flags.c) (s.config.logicPreservesCV && s.flags.v)) := by
  rw [exec, execNot, s.writeLogic_eq_afterResult, State.reg, word_eq_ofNat BitVec.toNat_not]

/-- Settles O29: each operation on words is the one on the numbers they stand for. -/
theorem logicCompletes : Obligations.LogicCompletes := by
  intro rd src s
  refine ⟨fun h => ⟨?_, ?_, ?_⟩, exec_not rd s⟩
  · exact h.logicOp_eq (word_eq_ofNat (BitVec.toNat_and _ _))
  · exact h.logicOp_eq (word_eq_ofNat (BitVec.toNat_or _ _))
  · exact h.logicOp_eq (word_eq_ofNat (BitVec.toNat_xor _ _))

/-! ## SHL, SHR -/

/-- The low 6 bits of the operand are its value modulo 64 (R102, R103). -/
theorem shiftCount_eq_mod (b : Word) : shiftCount b = b.toNat % 64 := by
  rw [shiftCount, BitVec.extractLsb'_toNat, Nat.shiftRight_zero]

/-- The carry of a shift is the named bit of the number, and 0 when nothing is shifted out (R102, R103). -/
theorem shiftCarry_eq (a : Word) (n i : Nat) :
    (if n = 0 then false else a.getLsbD i) = (decide (n ≠ 0) && a.toNat.testBit i) := by
  by_cases hn : n = 0
  · rw [if_pos hn, decide_eq_false (not_not_intro hn), Bool.false_and]
  · rw [if_neg hn, decide_eq_true hn, Bool.true_and, BitVec.getLsbD]

/-- A left shift multiplies modulo 2^64; bit `64 - n` is the last one out (R102). -/
theorem aluShl_eq (a b : Word) {n : Nat} (hn : n = b.toNat % 64) :
    aluShl a b =
      ⟨BitVec.ofNat 64 (a.toNat * 2 ^ n), decide (n ≠ 0) && a.toNat.testBit (64 - n), false⟩ := by
  have hresult : a <<< n = BitVec.ofNat 64 (a.toNat * 2 ^ n) := by
    rw [← Nat.shiftLeft_eq]
    rfl
  rw [aluShl, shiftCount_eq_mod, ← hn, shiftCarry_eq, hresult]

/-- A right shift divides, rounding down; bit `n - 1` is the last one out (R103). -/
theorem aluShr_eq (a b : Word) {n : Nat} (hn : n = b.toNat % 64) :
    aluShr a b =
      ⟨BitVec.ofNat 64 (a.toNat / 2 ^ n), decide (n ≠ 0) && a.toNat.testBit (n - 1), false⟩ := by
  have hresult : a >>> n = BitVec.ofNat 64 (a.toNat / 2 ^ n) :=
    word_eq_ofNat ((BitVec.toNat_ushiftRight a n).trans (Nat.shiftRight_eq_div_pow _ _))
  rw [aluShr, shiftCount_eq_mod, ← hn, shiftCarry_eq, hresult]

/-- Settles O30: both are ALU instructions, whose count is the operand's value modulo 64. -/
theorem shiftsComplete : Obligations.ShiftsComplete :=
  fun _ _ _ _ h hn => ⟨h.aluOp_eq (aluShl_eq _ _ hn), h.aluOp_eq (aluShr_eq _ _ hn)⟩

end Sys2Proof.Machine
end

section
/-! Control transfer (R104 to R120): what a branch comes to once its target has resolved, the stack round trips, and the
error of an operand that does not resolve, which comes before everything else an instruction does (R105, R136). -/

namespace Sys2Proof.Machine

/-! ## Errors of the operand -/

/-- An instruction whose operand fails takes that error, whatever it would have gone on with (R68, R132). -/
theorem State.OperandFails.withOperand_eq {s : State} {o : Operand} {e : Err} (h : s.OperandFails e o)
    (k : Word → Attempt State) : s.withOperand o k = .next (s.haltedBy e) := by
  rw [State.withOperand, h.readOperand_eq, Attempt.bind_raised, Attempt.finish_raised_eq_haltedBy]

/-- Every instruction with an operand begins by resolving it, in the state after the fetch (R68, R105). -/
theorem exec_eq_withOperand {i : Instr} {o : Operand} (h : i.operand? = some o) (s : State) :
    ∃ k, exec i s = s.withOperand o k := by
  cases i with
  | nop | pop | inc | dec | swap | not | ret | hlt => cases h
  | _ => cases h; exact ⟨_, rfl⟩

/-- Settles O43: the instruction resolves its operand first, and that raises. -/
theorem operandErrorIsTaken : Obligations.OperandErrorIsTaken := by
  intro i o e s hi hf
  obtain ⟨k, hk⟩ := exec_eq_withOperand hi s
  rw [hk, hf.withOperand_eq]

/-! ## Branches -/

/-- A branch whose target resolves writes `pc` exactly when its condition holds, and nothing else (R104). -/
theorem State.Resolves.branchIf_eq {s : State} {tgt : Operand} (h : s.Resolves tgt) {taken : Bool} {p : Prop}
    [Decidable p] (hp : taken = true ↔ p) :
    s.branchIf tgt taken = .next { s with pc := if p then s.operandValue tgt else s.pc } := by
  rw [State.branchIf, h.withOperand_eq, Attempt.finish_done]
  by_cases hc : p
  · rw [if_pos (hp.2 hc), if_pos hc]
  · rw [if_neg (mt hp.1 hc), if_neg hc]

/-- Settles O31: the branch that is always taken. -/
theorem jmpCompletes : Obligations.JmpCompletes := by
  intro tgt s h
  rw [exec, execJmp, h.branchIf_eq (iff_true_intro rfl), if_pos trivial]

/-- Settles O32: each condition of R106 as the bit its branch computes. -/
theorem conditionalBranchesComplete : Obligations.ConditionalBranchesComplete := by
  intro tgt s h
  refine ⟨?jz, ?jnz, ?jc, ?jnc, ?jl, ?jle, ?jg, ?jge⟩
  case jz => exact h.branchIf_eq Iff.rfl
  case jnz => exact h.branchIf_eq (by rw [Bool.not_eq_true'])
  case jc => exact h.branchIf_eq Iff.rfl
  case jnc => exact h.branchIf_eq (by rw [Bool.not_eq_true'])
  case jl => exact h.branchIf_eq bne_iff_ne
  case jle => exact h.branchIf_eq (by rw [Bool.or_eq_true, bne_iff_ne])
  case jg => exact h.branchIf_eq (by rw [Bool.and_eq_true, Bool.not_eq_true', beq_iff_eq])
  case jge => exact h.branchIf_eq beq_iff_eq

/-- Settles O33: after CMP, Z says that the numbers are equal, C that the first is less, N is bit 63 of the difference
and V is clear, so that N differs from V exactly when that bit is 1 (R95, R106). -/
theorem branchesAfterCompare : Obligations.BranchesAfterCompare := by
  intro ra src tgt s t hsrc hcmp ht
  rw [hsrc.exec_cmp] at hcmp
  have hflags := s.setAluFlags_aluSub_flags s.regs[ra.val] (s.operandValue src)
  rw [Host.Outcome.next.inj hcmp, ← word_sub_eq_ofNat] at hflags
  refine ⟨?jz, ?jc, ?jl, ?jge⟩
  case jz => exact ht.branchIf_eq (by rw [hflags, decide_eq_true_iff])
  case jc => exact ht.branchIf_eq (by rw [hflags, decide_eq_true_iff])
  case jl => exact ht.branchIf_eq (by rw [hflags, Bool.bne_false])
  case jge => exact ht.branchIf_eq (by rw [hflags, beq_iff_eq])

/-! ## LOOP -/

/-- LOOP counts down and then branches to the target it has resolved before (R117). -/
theorem State.Resolves.exec_loop {s : State} {tgt : Operand} (h : s.Resolves tgt) (rc : Reg) :
    exec (.loop rc tgt) s =
      .next { s.setReg rc (s.reg rc - 1) with pc := if s.reg rc - 1 = 0 then s.pc else s.operandValue tgt } :=
  h.withOperand_eq _

/-- Settles O34: the counter is down to 0 exactly when it was 1. -/
theorem loopCompletes : Obligations.LoopCompletes := by
  intro rc tgt s h
  have hzero : s.regs[rc.val] - 1 = 0 ↔ (s.regs[rc.val]).toNat = 1 := by
    rw [sub_eq_zero, ← BitVec.toNat_inj, word_toNat_one]
  have hless : s.regs[rc.val] - 1 = BitVec.ofNat 64 (2 ^ 64 + (s.regs[rc.val]).toNat - 1) :=
    word_sub_eq_ofNat _ 1
  simp only [h.exec_loop, State.reg, hzero]
  rw [hless, State.setReg]

/-! ## CALL, RET -/

/-- Settles O35: the push stores `pc`, and the target was resolved before it. -/
theorem callCompletes : Obligations.CallCompletes := by
  intro tgt s hm h ha
  obtain ⟨m, hst, hwf, hpush⟩ := ha.push_stores hm s.pc
  exact ⟨m, hst, hwf, by rw [h.exec_call, hpush, Attempt.bind_done, Attempt.finish_done]⟩

/-- Settles O36: the pop answers the word at `sp`, which becomes `pc`. -/
theorem retCompletes : Obligations.RetCompletes := by
  intro s ha
  rw [exec, execRet, ha.pop_eq, Attempt.bind_done, Attempt.finish_done]

/-! ## Stack round trips -/

/-- The word at an address where a value has been stored is that value (R48, R51). -/
theorem State.word64_of_stored {s : State} {m₀ : Memory} {a v : Word} (h : Stored m₀ s.mem a.toNat 8 v) :
    s.word64 a = v := by
  have hnum : s.numberAt a.toNat 8 = (v.extractLsb' 0 64).toNat := State.numberAt_of_stored h 0 8 le_rfl
  rw [State.word64, hnum, BitVec.ofNat_toNat, BitVec.extractLsb'_eq_self, BitVec.setWidth_eq]

/-- PUSH of a register then POP of it changes nothing but the bytes of the slot (R84, R85). -/
theorem exec_pop_after_push {s : State} (hm : s.mem.wf = true) (hw : s.Accessible .write (s.sp - 8) 8)
    (hr : s.Accessible .read (s.sp - 8) 8) (r : Reg) :
    ∃ t m, exec (.push (.register r)) s = .next t ∧ exec (.pop r) t = .next { s with mem := m } ∧
      Stored s.mem m (s.sp - 8).toNat 8 s.regs[r.val] := by
  obtain ⟨m, hst, -, hpush⟩ := pushCompletes (.register r) s hm trivial hw
  refine ⟨_, m, hpush, ?_, hst⟩
  have hslot : State.word64 { s with mem := m, sp := s.sp - 8 } (s.sp - 8) = s.regs[r.val] :=
    State.word64_of_stored hst
  rw [popCompletes r { s with mem := m, sp := s.sp - 8 } hr, hslot, Vector.set_getElem_self, BitVec.sub_add_cancel]

/-- RET after CALL comes back to the instruction after the CALL, whatever has changed `pc` in between (R118, R119). -/
theorem exec_ret_after_call {s : State} (hm : s.mem.wf = true) (hw : s.Accessible .write (s.sp - 8) 8)
    (hr : s.Accessible .read (s.sp - 8) 8) {tgt : Operand} (h : s.Resolves tgt) (p : Word) :
    ∃ t m, exec (.call tgt) s = .next t ∧ exec .ret { t with pc := p } = .next { s with mem := m } := by
  obtain ⟨m, hst, -, hcall⟩ := callCompletes tgt s hm h hw
  refine ⟨_, m, hcall, ?_⟩
  have hslot : State.word64 { s with mem := m, sp := s.sp - 8, pc := p } (s.sp - 8) = s.pc :=
    State.word64_of_stored hst
  rw [retCompletes { s with mem := m, sp := s.sp - 8, pc := p } hr, hslot, BitVec.sub_add_cancel]

/-- Settles O37: both round trips give the state back but for memory. -/
theorem stackRoundTripsRestore : Obligations.StackRoundTripsRestore := by
  intro s _ hm hw hr
  refine ⟨exec_pop_after_push hm hw hr, fun tgt p h => ?_⟩
  obtain ⟨t, m, hcall, hret⟩ := exec_ret_after_call hm hw hr h p
  exact ⟨t, { s with mem := m }, hcall, hret, rfl, rfl, rfl, rfl⟩

/-! ## NOP, HLT -/

/-- Settles O38: each is its definition. -/
theorem nopHltComplete : Obligations.NopHltComplete :=
  fun _ => ⟨rfl, rfl⟩

end Sys2Proof.Machine
end

section
/-! Ports and the diagnostic channel (R122 to R129): what a read or a write of each port comes to, PRINT, IN and OUT once
their operand has resolved, and the step that holds on port 0 (D40). -/

namespace Sys2Proof.Machine

/-! ## Reading and writing a port -/

/-- A number above 1 names neither of the two defined ports (R122). -/
theorem word_ne_zero_and_ne_one {p : Word} (hp : 1 < p.toNat) : p ≠ 0 ∧ p ≠ 1 :=
  ⟨fun h => absurd (h ▸ hp) (by decide), fun h => absurd (h ▸ hp) (by decide)⟩

/-- A port 0 read takes the next value the host has supplied and ends the hold (R123). -/
theorem State.readPort0_of_cons {s : State} {v : Word} {rest : List Word} (h : s.port0Input = v :: rest) (rd : Reg) :
    s.readPort0 rd =
      { s with regs := s.regs.set rd.val v, port0Input := rest, portWait := none,
               trace := s.trace ++ [.portRead 0 v] } := by
  rw [State.readPort0, h]
  rfl

/-- A port 0 read with no value supplied only holds (R123, D40). -/
theorem State.readPort0_of_nil {s : State} (h : s.port0Input = []) (rd : Reg) :
    s.readPort0 rd = { s with portWait := some rd } := by
  rw [State.readPort0, h]

/-! The branches of R123 and R124, by the number of the port. -/

section
variable (s : State) {p : Word}

theorem State.ioReadInto_port0 (hp : p.toNat = 0) (rd : Reg) : s.ioReadInto p rd = s.readPort0 rd :=
  if_pos (word_eq_ofNat hp)

theorem State.ioReadInto_port1 (hp : p.toNat = 1) (rd : Reg) : s.ioReadInto p rd = s.readPort1 rd := by
  rw [word_eq_ofNat hp]
  rfl

theorem State.ioReadInto_other (hp : 1 < p.toNat) (rd : Reg) : s.ioReadInto p rd = s.setReg rd 0 := by
  obtain ⟨h0, h1⟩ := word_ne_zero_and_ne_one hp
  rw [State.ioReadInto, if_neg h0, if_neg h1]

theorem State.ioWrite_port0 (hp : p.toNat = 0) (v : Word) : s.ioWrite p v = s.record (.portWrite 0 v) :=
  if_pos (word_eq_ofNat hp)

theorem State.ioWrite_port1 (hp : p.toNat = 1) (v : Word) : s.ioWrite p v = s.record (.portWrite 1 v) := by
  rw [word_eq_ofNat hp]
  rfl

theorem State.ioWrite_other (hp : 1 < p.toNat) (v : Word) : s.ioWrite p v = s := by
  obtain ⟨h0, h1⟩ := word_ne_zero_and_ne_one hp
  rw [State.ioWrite, if_neg h0, if_neg h1]

end

/-! ## PRINT, IN, OUT -/

/-- Settles O39: the value of the operand goes to the trace. -/
theorem printCompletes : Obligations.PrintCompletes :=
  fun _ _ h => h.withOperand_eq _

/-- IN reads the port its operand denotes (R128). -/
theorem State.Resolves.exec_inPort {s : State} {port : Operand} (h : s.Resolves port) (rd : Reg) :
    exec (.inPort rd port) s = .next (s.ioReadInto (s.operandValue port) rd) :=
  h.withOperand_eq _

/-- OUT writes `x[rs]` to the port its operand denotes (R129). -/
theorem State.Resolves.exec_outPort {s : State} {port : Operand} (h : s.Resolves port) (rs : Reg) :
    exec (.outPort rs port) s = .next (s.ioWrite (s.operandValue port) s.regs[rs.val]) :=
  h.withOperand_eq _

/-- Settles O40, port by port. -/
theorem inCompletes : Obligations.InCompletes := by
  intro rd port s h
  rw [h.exec_inPort]
  refine ⟨?port0, ?port1, ?other⟩
  case port0 =>
    intro v rest hp hin
    rw [s.ioReadInto_port0 hp, State.readPort0_of_cons hin]
  case port1 =>
    intro hp
    refine ⟨_, rfl, ?_⟩
    rw [s.ioReadInto_port1 hp]
    rfl
  case other =>
    intro hp
    rw [s.ioReadInto_other hp, State.setReg]

/-- Settles O42, port by port. -/
theorem outCompletes : Obligations.OutCompletes := by
  intro rs port s h
  rw [h.exec_outPort]
  refine ⟨fun hp => ?port0, fun hp => ?port1, fun hp => ?other⟩
  case port0 => rw [s.ioWrite_port0 hp, State.record]
  case port1 => rw [s.ioWrite_port1 hp, State.record]
  case other => rw [s.ioWrite_other hp]

/-! ## The hold on port 0 -/

/-- A step that holds on port 0 tries the read again, and does not fetch (D40). -/
theorem step_of_holding {s : State} (hr : s.running = true) {rd : Reg} (hw : s.portWait = some rd) :
    step s = .next (s.readPort0 rd) := by
  simp [step, State.phase, hr, hw]

/-- Settles O41: IN and the held step are the same read of port 0; to hold again is to change nothing. -/
theorem inFromPortZeroHolds : Obligations.InFromPortZeroHolds := by
  refine ⟨?holds, ?staysHeld, ?goesOn⟩
  case holds =>
    intro rd port s h hp hin
    rw [h.exec_inPort, s.ioReadInto_port0 hp, State.readPort0_of_nil hin]
  case staysHeld =>
    intro rd s hr hw hin
    rw [step_of_holding hr hw, State.readPort0_of_nil hin, ← hw]
  case goesOn =>
    intro rd s v rest hr hw hin
    rw [step_of_holding hr hw, State.readPort0_of_cons hin]

end Sys2Proof.Machine
end

section
/-! Errors (R130 to R138): that every step answers, what an illegal word does, what an error leaves of the state an
instruction began in, and interrupt entry, which leaves all of it. -/

namespace Sys2Proof.Machine

/-! ## Every step answers -/

/-- Settles O49: what answers with one of the effects answers. -/
theorem everyStepAnswersNext : Obligations.EveryStepAnswersNext :=
  ⟨fun s => (step_effect s).imp fun _ h => h.1, fun i s => (exec_effect i s).imp fun _ h => h.1⟩

/-! ## Illegal words -/

/-- Settles O48: the fetch answers the word at `pc`, which the decoder rejects; so it does in the rule's example. -/
theorem illegalWordIsTaken : Obligations.IllegalWordIsTaken := by
  refine ⟨fun s x h hd => ?_, ?_⟩
  · have ⟨hr, hw, _, _⟩ := h
    exact step_of_decode_error hr hw h.memFetch_eq hd
  · have hstep := step_of_decode_error (s := State.reset.withFetchWord 64 0xFF00000000000000)
      (w := 0xFF00000000000000) (x := .unknownOpcode 0xFF) (by decide) (by decide) (by decide) (by decide)
    exact ⟨_, hstep, by decide⟩

/-! ## What an error leaves -/

/-- What is left of `s` when an instruction raises `e` in it: all of `s`, or, under PARTIAL_WRITE and for a denied write
of 8 bytes, `s` with the bytes below the denied one written (R48, R133). -/
inductive State.LeftBy (s : State) : Err → State → Prop where
  | unchanged (e : Err) : s.LeftBy e s
  | partialWrite (hp : s.config.partialWrite = true) {a : Word} {j : Nat} (hd : s.DeniedAt .write a 8 j) (v : Word) :
    s.LeftBy (.accessViolation .write (a + BitVec.ofNat 64 j)) (s.poke a.toNat (bytesOfWord j v))

section
variable {s left : State} {e : Err}

/-- An error leaves everything but memory. -/
theorem State.LeftBy.frame (h : s.LeftBy e left) : ∃ m, left = { s with mem := m } := by
  cases h with
  | unchanged => exact ⟨_, rfl⟩
  | partialWrite hp hd v => exact ⟨_, rfl⟩

theorem State.LeftBy.mem_eq (h : s.LeftBy e left) (hp : s.config.partialWrite = false) : left.mem = s.mem := by
  cases h with
  | unchanged => rfl
  | partialWrite hp' hd v => simp [hp] at hp'

/-- A byte that an error does not leave lies below the byte the error names, in the same 8 bytes: those addresses do not
wrap, because MEMORY_SIZE is below 2^64 (R8). -/
theorem State.LeftBy.of_read_ne (h : s.LeftBy e left) (hsize : s.config.memorySizeOk = true) (hm : s.mem.wf = true)
    {x : Nat} (hx : left.mem.read x ≠ s.mem.read x) :
    e.toReg.kind = .accessViolation ∧ e.toReg.access = .write ∧ x < e.toReg.addr.toNat ∧ e.toReg.addr.toNat < x + 8 := by
  cases h with
  | unchanged => exact absurd rfl hx
  | @partialWrite hp a j hd v =>
    have hbelow : a.toNat ≤ x ∧ x < a.toNat + j := by
      by_contra hout
      exact hx ((s.mem.stored_writeBytes a.toNat j v hm x).trans (if_neg hout))
    obtain ⟨hb, hj, -, -⟩ := hd
    obtain ⟨-, hlt⟩ := of_decide_eq_true hsize
    have haddr : (a + BitVec.ofNat 64 j).toNat = a.toNat + j := by
      rw [BitVec.toNat_add, BitVec.toNat_ofNat]
      omega
    refine ⟨rfl, rfl, ?_⟩
    simp only [Err.toReg, haddr]
    omega

end

/-! ## Attempts that raise precisely -/

/-- An attempt that reaches a value with `P`, or raises an error and leaves of `s` what that error leaves. -/
def Attempt.Precise {α : Type} (s : State) (P : α → Prop) : Attempt α → Prop
  | .done a => P a
  | .raised e left => s.LeftBy e left

theorem Attempt.Precise.bind {α β : Type} {s : State} {P : α → Prop} {Q : β → Prop} {x : Attempt α}
    {f : α → Attempt β} (hx : x.Precise s P) (hf : ∀ a, P a → (f a).Precise s Q) : (x.bind f).Precise s Q := by
  cases x with
  | done a => exact hf a hx
  | raised e left => exact hx

/-- `ERR` in `t` is as in `s`. -/
def State.KeepsErr (s t : State) : Prop := t.err = s.err

/-- `t` is reached from `s` without an error, or by taking one that left of `s` what it leaves (R132, R133). -/
def State.EndsPrecisely (s t : State) : Prop :=
  s.KeepsErr t ∨ ∃ e left, s.LeftBy e left ∧ t = left.raise e

theorem Attempt.Precise.finish {s : State} {x : Attempt State} (hx : x.Precise s s.KeepsErr) :
    Answers s.EndsPrecisely x.finish := by
  cases x with
  | done t => exact ⟨t, rfl, .inl hx⟩
  | raised e left => exact ⟨_, rfl, .inr ⟨e, left, hx, rfl⟩⟩

theorem State.memRead_precise (s : State) (a : Word) (n : Nat) : (s.memRead a n).Precise s fun _ => True := by
  rcases s.memRead_cases a n with ⟨-, e⟩ | ⟨x, -, e⟩ <;> rw [e]
  · trivial
  · exact .unchanged x

theorem State.memWrite_precise (s : State) (a v : Word) : (s.memWrite a 8 v).Precise s s.KeepsErr := by
  rcases s.memWrite_cases a 8 v with ⟨-, e⟩ | ⟨-, e⟩ | ⟨j, hd, e⟩ <;> rw [e]
  · rfl
  · exact .unchanged _
  · have ⟨_, hj, _, _⟩ := hd
    rw [take_bytesOfWord 8 j v hj.le]
    split
    · next hp => exact .partialWrite hp hd v
    · exact .unchanged _

theorem State.push_precise (s : State) (v : Word) : (s.push v).Precise s s.KeepsErr :=
  (s.memWrite_precise (s.sp - 8) v).bind fun _ h => h

theorem State.pop_precise (s : State) : s.pop.Precise s fun p => s.KeepsErr p.2 :=
  (s.memRead_precise s.sp 8).bind fun _ _ => rfl

theorem State.readOperand_precise (s : State) (o : Operand) : (s.readOperand o).Precise s fun _ => True := by
  rcases s.readOperand_cases o with ⟨v, -, e⟩ | ⟨x, -, e⟩ <;> rw [e]
  · trivial
  · exact .unchanged x

theorem State.writeOperand_precise (s : State) (o : Operand) (r reg1 : Reg) (v : Word) :
    (s.writeOperand o r reg1 v).Precise s s.KeepsErr := by
  rcases s.writeOperand_cases o r reg1 v with ⟨q, e⟩ | ⟨a, e⟩ | e <;> rw [e]
  · rfl
  · exact s.memWrite_precise a v
  · exact .unchanged _

theorem State.withOperand_precise (s : State) (o : Operand) {k : Word → Attempt State}
    (hk : ∀ v, (k v).Precise s s.KeepsErr) : Answers s.EndsPrecisely (s.withOperand o k) :=
  ((s.readOperand_precise o).bind fun v _ => hk v).finish

/-! ## Instructions raise precisely -/

theorem State.divisionOp_precise (s : State) (f : Word → Word → AluResult) (rd : Reg) (src : Operand) :
    Answers s.EndsPrecisely (s.divisionOp f rd src) := by
  refine s.withOperand_precise src fun v => ?_
  split
  · exact .unchanged _
  · rfl

theorem State.writeLogic_keepsErr (s : State) (rd : Reg) (r : Word) : s.KeepsErr (s.writeLogic rd r) := by
  rw [State.writeLogic, State.setFlagsLogic_eq]
  rfl

theorem State.branchIf_precise (s : State) (tgt : Operand) (taken : Bool) :
    Answers s.EndsPrecisely (s.branchIf tgt taken) :=
  s.withOperand_precise tgt fun _ => by cases taken <;> rfl

theorem State.readPort0_keepsErr (s : State) (rd : Reg) : s.KeepsErr (s.readPort0 rd) := by
  rcases s.readPort0_cases rd with ⟨-, e⟩ | ⟨v, rest, -, e⟩ <;> rw [e] <;> rfl

theorem State.ioReadInto_keepsErr (s : State) (p : Word) (rd : Reg) : s.KeepsErr (s.ioReadInto p rd) := by
  unfold State.ioReadInto
  split
  · exact s.readPort0_keepsErr rd
  · split <;> rfl

theorem State.ioWrite_keepsErr (s : State) (p v : Word) : s.KeepsErr (s.ioWrite p v) := by
  unfold State.ioWrite
  split
  · rfl
  · split <;> rfl

theorem execMov_precise (rd : Reg) (src : Operand) (s : State) : Answers s.EndsPrecisely (execMov rd src s) := by
  refine s.withOperand_precise src fun v => ?_
  split
  · rfl
  · exact s.writeOperand_precise src rd rd v

/-- Every instruction ends with `ERR` as it was, or takes an error that leaves of the state after the fetch what that error
leaves: no instruction raises after it has written a register, a flag, `pc` or `sp`, or recorded an event (R133). -/
theorem exec_precise (i : Instr) (s : State) : Answers s.EndsPrecisely (exec i s) := by
  cases i with
  | nop | inc | dec | swap | hlt => exact ⟨_, rfl, .inl rfl⟩
  | not rd => exact ⟨_, rfl, .inl (s.writeLogic_keepsErr rd _)⟩
  | add rd src | sub rd src | mul rd src | shl rd src | shr rd src | cmp rd src | loop rd src | print src =>
    exact s.withOperand_precise src fun _ => rfl
  | and rd src | or rd src | xor rd src => exact s.withOperand_precise src fun _ => s.writeLogic_keepsErr rd _
  | div rd src | mod rd src => exact s.divisionOp_precise _ rd src
  | jmp tgt | jz tgt | jnz tgt | jc tgt | jnc tgt | jl tgt | jle tgt | jg tgt | jge tgt =>
    exact s.branchIf_precise tgt _
  | mov rd src => exact execMov_precise rd src s
  | load rd addr => exact s.withOperand_precise addr fun a => (s.memRead_precise a 8).bind fun _ _ => rfl
  | store addr rs => exact s.withOperand_precise addr fun a => s.memWrite_precise a _
  | push src => exact s.withOperand_precise src fun v => s.push_precise v
  | call tgt => exact s.withOperand_precise tgt fun t => (s.push_precise s.pc).bind fun _ h => h
  | pop rd | ret => exact Attempt.Precise.finish (s.pop_precise.bind fun _ h => h)
  | inPort rd port => exact s.withOperand_precise port fun p => s.ioReadInto_keepsErr p rd
  | outPort rs port => exact s.withOperand_precise port fun p => s.ioWrite_keepsErr p _

/-! ## Steps raise precisely -/

/-- A step of a running core keeps `ERR`, or takes an error of the fetch with `pc` as it was, or takes a later one with
`pc` advanced; what the error leaves is left (R132, R133). -/
theorem step_precise {s t : State} (hr : s.running = true) (hst : step s = .next t) :
    s.KeepsErr t ∨ (∃ e, s.memFetch s.pc = .raised e s ∧ t = s.raise e) ∨
      ∃ w e left, s.memFetch s.pc = .done w ∧ State.LeftBy { s with pc := s.pc + 8 } e left ∧ t = left.raise e := by
  unfold step at hst
  rcases s.phase_cases with
    ⟨hr', -⟩ | ⟨-, rd, -, hp⟩ | ⟨-, -, e, hf, hp, -⟩ | ⟨-, -, w, hf, ⟨_, -, hp⟩ | ⟨i, -, hp⟩⟩
  · simp [hr] at hr'
  all_goals rw [hp] at hst
  · cases hst
    exact .inl (s.readPort0_keepsErr rd)
  · cases hst
    exact .inr (.inl ⟨e, hf, rfl⟩)
  · cases hst
    exact .inr (.inr ⟨w, _, _, hf, .unchanged _, rfl⟩)
  · rcases (exec_precise i _).of_next hst with hk | ⟨e, left, hl, ht⟩
    · exact .inl hk
    · exact .inr (.inr ⟨w, e, left, hf, hl, ht⟩)

/-- Settles O45: a step that raises has left what its error leaves, with `pc` as the fetch left it. -/
theorem errorsArePrecise : Obligations.ErrorsArePrecise := by
  intro s t hsize hm hr hclear hst herr
  rcases step_precise hr hst with hk | ⟨e, hf, rfl⟩ | ⟨w, e, left, hf, hl, rfl⟩
  · exact absurd (hk.trans hclear) herr
  · exact ⟨rfl, rfl, rfl, rfl, rfl, fun _ => rfl, by simp [hf], fun _ => rfl, fun _ hx => absurd rfl hx⟩
  · obtain ⟨m, rfl⟩ := hl.frame
    exact ⟨rfl, rfl, rfl, rfl, rfl, by simp [hf], fun _ => rfl, hl.mem_eq, fun _ => hl.of_read_ne hsize hm⟩

/-! ## Interrupt entry -/

/-- The second of two pushes goes 16 below the first `sp` (R79). -/
theorem word_sub_eight_sub_eight (a : Word) : a - 8 - 8 = a - 16 := by bv_omega

/-- A push that fails raises its error; what it leaves of memory depends on PARTIAL_WRITE (R79). -/
theorem State.AccessFails.push_raises {s : State} {e : Err} (h : s.AccessFails .write (s.sp - 8) 8 e) (v : Word) :
    ∃ left, s.push v = .raised e left := by
  rcases h with ⟨hb, rfl⟩ | ⟨j, hd, rfl⟩
  · exact ⟨_, by rw [State.push, State.memWrite_eq_of_outOfBounds hb, Attempt.bind_raised]⟩
  · exact ⟨_, by rw [State.push, hd.memWrite_eq, Attempt.bind_raised]⟩

/-- An error on the way into a handler is taken in the state before the sequence, whatever it left (R138). -/
theorem State.interruptEntry_of_raised {s left : State} {n : Nat} {e : Err} (h : s.enterHandler n = .raised e left) :
    s.interruptEntry n = s.haltedBy e := by
  rw [State.interruptEntry, h, ← State.raise_eq_haltedBy]

/-- With room for `pc` on the stack, entry goes on to push the flag word below it. -/
theorem State.Accessible.enterHandler_eq {s : State} (h : s.Accessible .write (s.sp - 8) 8) (hm : s.mem.wf = true)
    (n : Nat) :
    ∃ m, Stored s.mem m (s.sp - 8).toNat 8 s.pc ∧ m.wf = true ∧
      s.enterHandler n = (State.push { s with mem := m, sp := s.sp - 8 } s.flags.word).bind fun s2 =>
        (s2.memRead (BitVec.ofNat 64 (8 * n)) 8).bind fun v =>
          .done { s2 with pc := v, flags := { s2.flags with i := false } } := by
  obtain ⟨m, hst, hwf, hpush⟩ := h.push_stores hm s.pc
  exact ⟨m, hst, hwf, by rw [State.enterHandler, hpush, Attempt.bind_done]⟩

/-- With room for both words on the stack, entry goes on to read the vector, in the memory the pushes have left. -/
theorem State.Accessible.enterHandler_eq_read {s : State} (h : s.Accessible .write (s.sp - 8) 8)
    (h' : s.Accessible .write (s.sp - 16) 8) (hm : s.mem.wf = true) (n : Nat) :
    ∃ m1 m2, Stored s.mem m1 (s.sp - 8).toNat 8 s.pc ∧ Stored m1 m2 (s.sp - 16).toNat 8 s.flags.word ∧
      s.enterHandler n =
        (State.memRead { s with mem := m2, sp := s.sp - 16 } (BitVec.ofNat 64 (8 * n)) 8).bind fun v =>
          .done { s with mem := m2, sp := s.sp - 16, pc := v, flags := { s.flags with i := false } } := by
  obtain ⟨m1, hst1, hwf1, henter⟩ := h.enterHandler_eq hm n
  have hroom : State.Accessible { s with mem := m1, sp := s.sp - 8 } .write (s.sp - 8 - 8) 8 :=
    word_sub_eight_sub_eight s.sp ▸ h'
  obtain ⟨m2, hst2, -, hpush⟩ := hroom.push_stores hwf1 s.flags.word
  rw [hpush] at henter
  simp only [word_sub_eight_sub_eight] at hst2 henter
  exact ⟨m1, m2, hst1, hst2, henter⟩

/-- Settles O57: access by access, and the host action under its parameter. -/
theorem interruptEntryFollowsRule : Obligations.InterruptEntryFollowsRule := by
  intro s n _ hm
  refine ⟨fun e hf => ?pcDenied, fun h e hf => ?flagsDenied, fun h h' => ⟨fun e hf => ?vectorDenied, fun hv => ?enters⟩,
    fun hw => ?command⟩
  case pcDenied =>
    obtain ⟨left, hpush⟩ := hf.push_raises s.pc
    exact State.interruptEntry_of_raised (by rw [State.enterHandler, hpush, Attempt.bind_raised])
  case flagsDenied =>
    obtain ⟨m, -, -, henter⟩ := h.enterHandler_eq hm n
    have hfull : State.AccessFails { s with mem := m, sp := s.sp - 8 } .write (s.sp - 8 - 8) 8 e :=
      word_sub_eight_sub_eight s.sp ▸ hf
    obtain ⟨left, hpush⟩ := hfull.push_raises s.flags.word
    exact State.interruptEntry_of_raised (by rw [henter, hpush, Attempt.bind_raised])
  case vectorDenied =>
    obtain ⟨m1, m2, -, -, henter⟩ := h.enterHandler_eq_read h' hm n
    have hf' : State.AccessFails { s with mem := m2, sp := s.sp - 16 } .read (BitVec.ofNat 64 (8 * n)) 8 e := hf
    exact State.interruptEntry_of_raised (by rw [henter, hf'.memRead_eq, Attempt.bind_raised])
  case enters =>
    obtain ⟨m1, m2, hst1, hst2, henter⟩ := h.enterHandler_eq_read h' hm n
    have hv' : State.Accessible { s with mem := m2, sp := s.sp - 16 } .read (BitVec.ofNat 64 (8 * n)) 8 := hv
    rw [hv'.memRead_eq, Attempt.bind_done] at henter
    exact ⟨m1, m2, hst1, hst2, by rw [State.interruptEntry, henter]; rfl⟩
  case command =>
    simp [State.command, State.perform, hw]

end Sys2Proof.Machine
end

section
/-! Reset and the host (R147 to R162): construction and reset, the host's accessors, the loading of a program, and how a run
ends. -/

namespace Sys2Proof.Machine

/-! ## Construction and reset -/

/-- Construction meets each clause of the invariant: memory is empty, the core does not run, and `ERR` is clear. -/
theorem State.construct_inv {c : Config} (hc : c.wf = true) : (State.construct c).Inv where
  configOk := hc
  memCanonical := rfl
  memInside := rfl
  runningClear := nofun
  holdRuns := nofun
  errAccess _ := rfl
  errAddr _ := rfl
  errExecute _ := nofun

/-- Settles O52: reset is construction with the default parameters, which R8 allows. -/
theorem resetMeetsTheInvariant : Obligations.ResetMeetsTheInvariant :=
  ⟨fun _ => State.construct_inv, State.construct_inv (by decide)⟩

theorem State.construct_regs (c : Config) (r : Reg) : (State.construct c).regs[r.val] = 0 :=
  Vector.getElem_replicate r.isLt

/-- The host's reset is construction again with the same parameters, but for the segment table, the trace and what the
ports depend on (R149). -/
theorem State.vmReset_eq_construct (s : State) :
    s.vmReset = { State.construct s.config with
      segments := s.segments, trace := s.trace, port0Input := s.port0Input, port1Draws := s.port1Draws } := rfl

/-- Settles O56: the fields that construction gives, and those that reset keeps. -/
theorem resetLeavesRuleState : Obligations.ResetLeavesRuleState := by
  intro s
  rw [s.vmReset_eq_construct]
  exact ⟨State.construct_regs s.config, rfl, rfl, rfl, rfl, rfl, fun _ => rfl, rfl, rfl, rfl, rfl, rfl, rfl⟩

/-! ## Accessors -/

/-- Between two steps every host command has its effect (R161). -/
theorem State.command_eq_perform {s : State} (hw : s.portWait = none) (c : Command) : s.command c = s.perform c := by
  simp [State.command, hw]

theorem State.getRegister_of_lt (s : State) {i : Nat} (h : i < 16) : s.getRegister i = s.regs[i] :=
  dif_pos h

theorem State.getRegister_of_ge (s : State) {i : Nat} (h : 16 ≤ i) : s.getRegister i = 0 :=
  dif_neg (Nat.not_lt.2 h)

theorem State.setRegister_of_lt (s : State) {i : Nat} (h : i < 16) (v : Nat) :
    s.setRegister i v = { s with regs := s.regs.set i (BitVec.ofNat 64 v) } :=
  dif_pos h

theorem State.setRegister_of_ge (s : State) {i : Nat} (h : 16 ≤ i) (v : Nat) : s.setRegister i v = s :=
  dif_neg (Nat.not_lt.2 h)

/-- The five flags stand in bits 0 to 4 of the flag word (R28). -/
theorem Flags.word_low_bits (f : Flags) :
    f.word.getLsbD 0 = f.z ∧ f.word.getLsbD 1 = f.c ∧ f.word.getLsbD 2 = f.n ∧ f.word.getLsbD 3 = f.v ∧
      f.word.getLsbD 4 = f.i := by
  obtain ⟨z, c, n, v, i⟩ := f
  revert z c n v i
  decide

/-- Every bit of the flag word above bit 4 is 0 (R28). -/
theorem Flags.word_high_bit (f : Flags) {g : Nat} (hg : 4 < g) : f.word.getLsbD g = false := by
  have hlt : f.word.toNat < 2 ^ 5 := by
    have := f.z.toNat_le; have := f.c.toNat_le; have := f.n.toNat_le; have := f.v.toNat_le; have := f.i.toNat_le
    rw [Flags.word, BitVec.toNat_ofNat]
    omega
  exact Nat.testBit_lt_two_pow (hlt.trans_le (Nat.pow_le_pow_right (by decide) hg))

/-- The host reads the bits of the flag word, in range and out of it (R159). -/
theorem State.getFlag_eq_bit (s : State) (f : Nat) : s.getFlag f = s.flags.word.getLsbD f := by
  obtain ⟨hz, hc, hn, hv, hi⟩ := s.flags.word_low_bits
  match f with
  | 0 => exact hz.symm
  | 1 => exact hc.symm
  | 2 => exact hn.symm
  | 3 => exact hv.symm
  | 4 => exact hi.symm
  | k + 5 => exact (s.flags.word_high_bit (by omega)).symm

theorem State.setFlag_of_gt (s : State) {f : Nat} (hf : 4 < f) (b : Nat) : s.setFlag f b = s := by
  obtain ⟨k, rfl⟩ : ∃ k, f = k + 5 := ⟨f - 5, by omega⟩
  rfl

/-- The host reads back the flag it has written (R159). -/
theorem State.getFlag_setFlag_same (s : State) {f : Nat} (hf : f ≤ 4) (b : Nat) :
    (s.setFlag f b).getFlag f = decide (b % 2 = 1) := by
  interval_cases f <;> rfl

/-- Writing a flag leaves every other one: the branch of the write and the branch of the read meet only where `g = f`
(R159). -/
theorem State.getFlag_setFlag_of_ne (s : State) {f g : Nat} (h : g ≠ f) (b : Nat) :
    (s.setFlag f b).getFlag g = s.getFlag g := by
  unfold State.setFlag
  split <;> unfold State.getFlag <;> split <;> trivial

/-- Settles O59: each command is performed, and each accessor acts in range and not out of it. -/
theorem hostAccessorsFollowRules : Obligations.HostAccessorsFollowRules := by
  intro s i v f b hw
  simp only [State.command_eq_perform hw]
  refine ⟨fun h => ?regsInRange, fun h => ?regsOutOfRange, rfl, rfl, rfl, rfl, ?getFlag, fun h => ?flagOutOfRange,
    fun h => ?flagInRange⟩
  case regsInRange => exact ⟨by rw [State.perform, s.getRegister_of_lt h], by rw [State.perform, s.setRegister_of_lt h]⟩
  case regsOutOfRange => exact ⟨by rw [State.perform, s.getRegister_of_ge h], by rw [State.perform, s.setRegister_of_ge h]⟩
  case getFlag =>
    by_cases h : f ≤ 4
    · rw [State.perform, s.getFlag_eq_bit, decide_eq_true h, Bool.true_and]
    · rw [State.perform, s.getFlag_eq_bit, s.flags.word_high_bit (Nat.not_le.1 h), Bool.and_false]
  case flagOutOfRange => rw [State.perform, s.setFlag_of_gt h]
  case flagInRange =>
    obtain ⟨w, hset⟩ := s.setFlag_shape f b
    refine ⟨_, rfl, by rw [hset], fun g => ?_⟩
    rw [← State.getFlag_eq_bit, ← State.getFlag_eq_bit]
    split
    · next hg => rw [hg, s.getFlag_setFlag_same h]
    · next hg => rw [s.getFlag_setFlag_of_ne hg]

/-! ## Loading a program -/

/-- `m'` is `m` with words put at `a`, `a + 8`, … (R153). -/
structure Memory.Loaded (m m' : Memory) (a : Nat) (words : List Word) : Prop where
  /-- The `i`-th word stands at `a + 8 * i`: to store it there again would change nothing. -/
  word : ∀ i (h : i < words.length), Stored m' m' (a + 8 * i) 8 words[i]
  /-- Every other byte is as before. -/
  frame : ∀ x, ¬ (a ≤ x ∧ x < a + 8 * words.length) → m'.read x = m.read x

theorem Memory.Loaded.nil (m : Memory) (a : Nat) : m.Loaded m a [] :=
  ⟨nofun, fun _ _ => rfl⟩

/-- The words after the first lie above it and leave it as it was stored. -/
theorem Memory.Loaded.cons {m m₁ m' : Memory} {a : Nat} {w : Word} {words : List Word} (hw : Stored m m₁ a 8 w)
    (hl : m₁.Loaded m' (a + 8) words) : m.Loaded m' a (w :: words) where
  word
    | 0, _ => fun x => by
      split
      · next hx => rw [hl.frame x (by omega), hw x]; exact if_pos hx
      · rfl
    | i + 1, h => by
      rw [show a + 8 * (i + 1) = a + 8 + 8 * i by omega]
      exact hl.word i (Nat.lt_of_succ_lt_succ h)
  frame x hx := by
    rw [List.length_cons] at hx
    rw [hl.frame x (by omega), hw x, if_neg (by omega)]

/-- Words whose bytes are all writable are written, and nothing else changes; no address wraps, because MEMORY_SIZE is
below 2^64 (R8, R153). -/
theorem State.Accessible.loadWords_loads {s : State} {base : Word} {words : List Word}
    (h : s.Accessible .write base (8 * words.length)) (hsize : s.config.memorySizeOk = true) (hm : s.mem.wf = true) :
    ∃ m, s.mem.Loaded m base.toNat words ∧ s.loadWords base.toNat words = .done { s with mem := m } := by
  induction words generalizing s base with
  | nil => exact ⟨s.mem, .nil s.mem base.toNat, rfl⟩
  | cons w words ih =>
    obtain ⟨hb, hp⟩ := h
    rw [List.length_cons] at hb hp
    have hfirst : s.Accessible .write base 8 := ⟨by omega, fun j hj => hp j (by omega)⟩
    obtain ⟨m₁, hst, hwf, hwrite⟩ := hfirst.memWrite_stores hm w
    have hnext : (base + 8).toNat = base.toNat + 8 := hfirst.toNat_add_ofNat hsize le_rfl
    have hrest : s.Accessible .write (base + 8) (8 * words.length) := by
      refine ⟨by omega, fun j hj => ?_⟩
      rw [hnext, Nat.add_assoc]
      exact hp (8 + j) (by omega)
    obtain ⟨m, hl, hload⟩ := ih (s := { s with mem := m₁ }) hrest hsize hwf
    rw [hnext] at hl hload
    refine ⟨m, .cons hst hl, ?_⟩
    rw [State.loadWords, BitVec.ofNat_toNat, BitVec.setWidth_eq, hwrite, Attempt.bind_done, hload]

theorem State.loadProgram_of_tooLarge {s : State} {words : List Word} {base : Word}
    (h : s.config.memorySize < base.toNat + 8 * words.length) : s.loadProgram words base = (s, .loadTooLarge) :=
  if_pos h

/-- A program that fits into writable memory is loaded, and `pc` is its base (R153). -/
theorem State.Accessible.loadProgram_loads {s : State} {base : Word} {words : List Word}
    (h : s.Accessible .write base (8 * words.length)) (hsize : s.config.memorySizeOk = true) (hm : s.mem.wf = true) :
    ∃ m, s.mem.Loaded m base.toNat words ∧ s.loadProgram words base = ({ s with mem := m, pc := base }, .ok) := by
  obtain ⟨m, hl, hload⟩ := h.loadWords_loads hsize hm
  exact ⟨m, hl, by rw [State.loadProgram, if_neg (Nat.not_lt.2 h.1), hload]⟩

/-- Settles O58: each word stands where it was stored, at an address that does not wrap. -/
theorem loadedProgramReadsBack : Obligations.LoadedProgramReadsBack := by
  intro s words base hsize hm
  refine ⟨State.loadProgram_of_tooLarge, fun hfits hp => ?_⟩
  have ha : s.Accessible .write base (8 * words.length) := ⟨hfits, hp⟩
  obtain ⟨m, hl, hload⟩ := ha.loadProgram_loads hsize hm
  refine ⟨_, hload, rfl, fun i h => State.word64_of_stored (m₀ := m) ?_, hl.frame⟩
  rw [ha.toNat_add_ofNat hsize (by omega)]
  exact hl.word i h

/-! ## Runs -/

/-- The loop of R154 ends only where the core does not run. -/
theorem State.runSteps_running {s t : State} {fuel : Nat} (h : s.runSteps fuel = .next t) : t.running = false := by
  induction fuel generalizing s with
  | zero =>
    rw [State.runSteps] at h
    split at h
    · cases h
    · next hr => cases h; exact Bool.eq_false_of_not_eq_true hr
  | succ fuel ih =>
    obtain ⟨u, hu, -⟩ := step_effect s
    rw [State.runSteps, hu] at h
    split at h
    · exact ih h
    · next hr => cases h; exact Bool.eq_false_of_not_eq_true hr

/-- The ending of a core that does not run: clean exactly when no error is recorded (R162). -/
theorem State.ending_of_halted {s : State} (hr : s.running = false) :
    s.ending = if s.err.kind = .none then some .haltedClean else some (.haltedOnError s.err) := by
  rw [State.ending, hr, if_neg Bool.false_ne_true]

/-- Settles O60: a run that ends has halted, and its ending is read off `ERR`. -/
theorem runEndsHalted : Obligations.RunEndsHalted := by
  intro s t fuel h
  have hr : t.running = false := State.runSteps_running h
  refine ⟨hr, ?_, fun hk => ?_⟩
  · rw [State.ending_of_halted hr]
    split
    · next hk => simp [hk]
    · next hk => simp [hk]
  · rw [State.ending_of_halted hr, if_neg hk]

end Sys2Proof.Machine
end

section
/-! Words written out as numbers: the decoder on the bytes of a word (R66), and the words of the spec's vectors. -/

namespace Sys2Proof

/-- Cutting a value into `n` bytes and composing them again leaves its low `n` bytes (R47, R48). -/
theorem wordOfBytes_bytesOfWord (n : Nat) (v : Word) :
    wordOfBytes (bytesOfWord n v) = BitVec.ofNat 64 (v.toNat % 256 ^ n) := by
  induction n generalizing v with
  | zero => rw [pow_zero, Nat.mod_one]; rfl
  | succ n ih =>
    have hshift : (v >>> 8).toNat = v.toNat / 256 := by rw [BitVec.toNat_ushiftRight, Nat.shiftRight_eq_div_pow]
    have hlow : v.toNat % 256 ^ (n + 1) = v.toNat % 256 + 256 * (v.toNat / 256 % 256 ^ n) := by
      rw [pow_succ', Nat.mod_mul]
    rw [bytesOfWord, Machine.wordOfBytes_cons, ih, hshift, hlow]
    apply BitVec.eq_of_toNat_eq
    simp only [BitVec.toNat_ofNat, BitVec.toNat_setWidth]
    omega

/-- The 8 bytes of a word compose to the word. -/
theorem wordOfBytes_bytesOfWord_eight (w : Word) : wordOfBytes (bytesOfWord 8 w) = w := by
  have hlt : w.toNat < 256 ^ 8 := w.isLt
  rw [wordOfBytes_bytesOfWord, Nat.mod_eq_of_lt hlt, BitVec.ofNat_toNat, BitVec.setWidth_eq]

/-- A word laid out in memory order decodes as the word itself, and no byte is left over (R63, R66). -/
theorem decodeBytes_bytesOfWord {c : Config} {w : Word} {i : Instr} (h : decode c w = .ok i) :
    decodeBytes c (bytesOfWord 8 w) = .ok (i, []) := by
  rw [← wordOfBytes_bytesOfWord_eight w] at h
  simp only [bytesOfWord] at h ⊢
  rw [decodeBytes, h]

/-- The default opcode map is injective (R8). -/
theorem Config.defaults_opcodeMapOk (size : Nat) : (Config.defaults size).opcodeMapOk = true := by
  show (Config.defaults 0).opcodeMapOk = true
  decide

/-- Bits that are the encoding of a well-formed instruction decode to it: decoding undoes encoding, and the byte order is
undone on the way. -/
theorem decodeTableWord_of_encode {nbits w : Nat} {i : Instr} (hi : i.wf true = true)
    (h : encode (Config.defaults resetMemorySize) i = tableWord nbits w) : decodeTableWord nbits w = some i := by
  have hdec : decode (Config.defaults resetMemorySize) (tableWord nbits w) = .ok i :=
    h ▸ decodeOfEncodeIsIdentity _ i (Config.defaults_opcodeMapOk _) hi
  rw [decodeTableWord, decodeBytes_bytesOfWord hdec]

/-- Settles O5: each vector's word is the encoding of its instruction. -/
theorem sampleWordsDecode : Obligations.SampleWordsDecode := by
  unfold Obligations.SampleWordsDecode
  and_intros <;> exact decodeTableWord_of_encode (by decide) (by decide)

end Sys2Proof
end
